-- ==== Sys2Proof/Word.lean ====
section
/-! DEFINITION. The word types of ECC and the two polarities (00_scope.md R7, R8, R10). -/

namespace Sys2Proof

/-- A word of the host register space: 32 bits (R48). -/
abbrev Word := BitVec 32

/-- A protocol code: "a 64-bit unsigned integer" (R7, R70). -/
abbrev Code := BitVec 64

/-- The two polarity states of a pulse (R10): `mark` is active/on, `space` is idle/off. -/
inductive Polarity where
  | mark
  | space
  deriving DecidableEq, Repr

/-- The opposite polarity. -/
def Polarity.flip : Polarity → Polarity
  | .mark => .space
  | .space => .mark

end Sys2Proof
end

