-- ==== Sys2Proof/Syntax.lean ====
section
/-! DEFINITION. What the host can send to ECC: the commands (one constructor per row of
spec/opcode_table.json), the fields of a command word, the registers of the address map and the
host's moves. -/

namespace Sys2Proof

/-- The commands of ECC, one constructor per row of the opcode table (R66). A command has no
operand of its own but N, which the row's name carries: "Every other operand is read from a
register when the command starts" (R69). -/
inductive Instr where
  | nop     -- R116
  | fenc    -- R85, N = 0
  | fencN   -- R85, N = 1
  | fdec    -- R86
  | menc    -- R95
  | frenc   -- R100, N = 0
  | frencN  -- R100, N = 1
  | norm    -- R106
  | mdec    -- R107
  | frdec   -- R113
  | vote    -- R114
  | rx      -- R115
  deriving DecidableEq, Repr

/-- The three fields of the one command format (R64). -/
structure CommandFields where
  /-- bits 3:0, the opcode -/
  op : BitVec 4
  /-- bit 4, the notify flag -/
  n : Bool
  /-- bits 31:5, reserved -/
  rsv : BitVec 27
  deriving DecidableEq, Repr

/-- The words of the host register space, by the names of the address map (R49, R78). -/
inductive Reg where
  | cmd | status
  | codeInLo | codeInHi
  | resultLo | resultHi
  | bits | start | endIdx
  | txLen | rxLen
  | tickUs | unitUs
  | cfg | repCount
  | rep0Lo | rep0Hi | rep1Lo | rep1Hi | rep2Lo | rep2Hi
  /-- `TX[j]` -/
  | tx (j : Nat)
  /-- `RX[j]` -/
  | rx (j : Nat)
  /-- a word the map reserves (R50) -/
  | reserved
  deriving DecidableEq, Repr

/-- What reaches ECC from outside: the host's moves (R130) and the reset input (R135). A command
is the move `write` to CMD. -/
inductive Input where
  /-- `MemRead(addr, size)` -/
  | read (addr size : Nat)
  /-- `MemWrite(addr, size, v)` -/
  | write (addr size : Nat) (v : Word)
  /-- the host gives `TX[0..TXLEN-1]` to the transmit driver (R61, R128) -/
  | transmitHandOff
  /-- the receive driver gives the host a capture: "a raw tick buffer plus a tick-to-microsecond
  conversion constant" (R61, R129), its first count a mark. Both at the widths of the registers the
  host will load them into (R27, R44). DESIGN CHOICE (log 10). -/
  | captureHandOff (counts : List Word) (tickUs : BitVec 16)
  /-- the reset input is asserted (R135) -/
  | reset
  deriving DecidableEq, Repr

end Sys2Proof
end

