-- ==== Sys2Proof/WellFormed.lean ====
section
/-! DEFINITION. Which command-word fields form a command (R68): one check per clause of the rule. -/

namespace Sys2Proof

/-- RSV is 0 (R64: "reserved; must be 0"). -/
def CommandFields.reservedClear (f : CommandFields) : Bool := f.rsv == 0#27

/-- OP names a command: 0xA to 0xF are reserved (R66). -/
def CommandFields.opcodeAssigned (f : CommandFields) : Bool := decide (f.op.toNat < 0xA)

/-- N is "an operand of FENC and FRENC only" (R64): N = 1 needs OP 0x1 or 0x4 (R68). -/
def CommandFields.notifyAllowed (f : CommandFields) : Bool :=
  !f.n || f.op == 0x1#4 || f.op == 0x4#4

/-- The fields of a legal command word (R68). -/
def CommandFields.wf (f : CommandFields) : Bool :=
  f.reservedClear && f.opcodeAssigned && f.notifyAllowed

/-- A command has no operand field (R69), so nothing about it can be ill formed: the checks of
R68 are about the word, and `CommandFields.wf` states them. -/
def Instr.wf : Instr → Bool
  | .nop | .fenc | .fencN | .fdec | .menc | .frenc | .frencN
  | .norm | .mdec | .frdec | .vote | .rx => true

end Sys2Proof
end

