-- ==== Sys2Proof/Decode.lean ====
section
/-! DEFINITION. The command word (R64 to R68): its fields, the decoder, total on every word and
rejecting by name, and the encoder. -/

namespace Sys2Proof

/-- Why a word is no command (R68). Each of the three raises ILLEGAL_OP. -/
inductive IllegalWord where
  | reservedBits      -- RSV is not 0
  | reservedOpcode    -- OP is 0xA to 0xF
  | notifyNotAllowed  -- N = 1 and OP is neither 0x1 nor 0x4
  deriving DecidableEq, Repr

/-- The fields of a word (R64). -/
def fieldsOfWord (w : Word) : CommandFields :=
  { op := w.extractLsb' 0 4, n := w.getLsbD 4, rsv := w.extractLsb' 5 27 }

/-- The word of three fields (R64). -/
def wordOfFields (f : CommandFields) : Word :=
  f.rsv ++ (BitVec.ofBool f.n ++ f.op)

/-- The decoder: the checks of R67 in their order, then the opcode map (R66). -/
def decode (w : Word) : Except IllegalWord Instr :=
  let f := fieldsOfWord w
  if ¬ f.reservedClear then .error .reservedBits
  else if ¬ f.opcodeAssigned then .error .reservedOpcode
  else if ¬ f.notifyAllowed then .error .notifyNotAllowed
  else
    match f.op.toNat with
    | 0x0 => .ok .nop
    | 0x1 => .ok (if f.n then .fencN else .fenc)
    | 0x2 => .ok .fdec
    | 0x3 => .ok .menc
    | 0x4 => .ok (if f.n then .frencN else .frenc)
    | 0x5 => .ok .norm
    | 0x6 => .ok .mdec
    | 0x7 => .ok .frdec
    | 0x8 => .ok .vote
    | 0x9 => .ok .rx
    | _ => .error .reservedOpcode

/-- The fields of each command's word (R66). -/
def fieldsOfInstr : Instr → CommandFields
  | .nop    => { op := 0x0, n := false, rsv := 0 }
  | .fenc   => { op := 0x1, n := false, rsv := 0 }
  | .fencN  => { op := 0x1, n := true,  rsv := 0 }
  | .fdec   => { op := 0x2, n := false, rsv := 0 }
  | .menc   => { op := 0x3, n := false, rsv := 0 }
  | .frenc  => { op := 0x4, n := false, rsv := 0 }
  | .frencN => { op := 0x4, n := true,  rsv := 0 }
  | .norm   => { op := 0x5, n := false, rsv := 0 }
  | .mdec   => { op := 0x6, n := false, rsv := 0 }
  | .frdec  => { op := 0x7, n := false, rsv := 0 }
  | .vote   => { op := 0x8, n := false, rsv := 0 }
  | .rx     => { op := 0x9, n := false, rsv := 0 }

/-- The encoder: the word of a command (R66). -/
def encode (i : Instr) : Word := wordOfFields (fieldsOfInstr i)

/-- The command the decoder reads from an opcode-table row's bits: a command is one 32-bit word
(R65), with bit 0 its least significant bit, so the table's numbering is the word's own (log 16). -/
def decodeTableWord (nbits w : Nat) : Option Instr :=
  if nbits ≤ 32 ∧ w < 2 ^ nbits then (decode (BitVec.ofNat 32 w)).toOption else none

end Sys2Proof
end

