-- ==== Sys2Proof/Config.lean ====
section
/-! DEFINITION. What an implementation of ECC fixes (R6, R51) and the values the spec leaves
free (93_implementation_defined.md I4). -/

namespace Sys2Proof.Config

/-- The implementation parameters of ECC: "A model takes each one as an argument" (R6, R51).
A state carries them in a field that no step changes (log 1, log 2). -/
structure Params where
  /-- `TX_CAP`, the number of entries of TXBUF (R6). -/
  txCap : Nat
  /-- `RX_CAP`, the number of entries of RXBUF (R6). -/
  rxCap : Nat
  /-- `ECC_BASE`, where the platform places the register space (R51). -/
  eccBase : Nat
  deriving DecidableEq, Repr

/-- The constraints of R6 and of the OPEN table of 92_eei_decisions.md. -/
abbrev Params.Valid (p : Params) : Prop :=
  211 ≤ p.txCap ∧ p.txCap ≤ 1024 ∧ 211 ≤ p.rxCap ∧ p.rxCap ≤ 1024 ∧ p.eccBase % 4 = 0

/-- The values "this spec assumes where an example needs one" (R6), at base 0.
DESIGN CHOICE (log 1, log 2). -/
def exampleParams : Params := { txCap := 256, rxCap := 256, eccBase := 0 }

/-- FREE VALUE (I4): what entry `j` of TXBUF holds after the `n`-th reset until it is
written: "Unspecified". DESIGN CHOICE (log 3). -/
opaque txAtReset : (n j : Nat) → BitVec 16

/-- FREE VALUE (I4): what entry `j` of RXBUF holds after the `n`-th reset until it is
written: "Unspecified". DESIGN CHOICE (log 3). -/
opaque rxAtReset : (n j : Nat) → BitVec 32

end Sys2Proof.Config
end

