-- ==== Sys2Proof/Machine/State.lean ====
section
/-! DEFINITION. The state of ECC as plain data (10_state.md R13), the reasons a step can stop,
and the state after reset (R135). -/

namespace Sys2Proof.Machine

/-- The codes STATUS.ERR can hold (R121). Codes 5 to 7 are "never written" and have no
constructor (I6, log 15). -/
inductive ErrCode where
  | ok          -- 0
  | illegalOp   -- 1
  | badArg      -- 2
  | emptySpace  -- 3
  | txOverflow  -- 4
  deriving DecidableEq, Repr

/-- The configuration record CFG (R29 to R39). Its reserved bits store nothing (R40). -/
structure Cfg where
  powerSetting : Bool
  powerReal : Bool
  mode : BitVec 3
  fan : BitVec 2
  swing : Bool
  swingH : Bool
  sleep : Bool
  ifeel : Bool
  temperature : BitVec 6
  ifeelTemperature : BitVec 6
  deriving DecidableEq, Repr

/-- A buffer: the entries written since the last reset, as (index, value) pairs (log 5). -/
abbrev Entries (w : Nat) := List (Nat × BitVec w)

/-- The memory of ECC: TXBUF (R43) and RXBUF (R44). An entry that is not listed holds the
unspecified value it has had since reset (I4, log 3). The canonical form is `Memory.wf`. -/
structure Memory where
  tx : Entries 16
  rx : Entries 32
  deriving DecidableEq, Repr

/-- One pulse on the transmit line (R128): a polarity and a duration in microseconds. After the last
pulse the line is idle: `lineLevel` (HostMoves.lean) gives its level at every time. -/
structure Pulse where
  polarity : Polarity
  micros : Nat
  deriving DecidableEq, Repr

/-- The state of ECC (R13). The last four fields are the model's own (log 4, 6, 8, 9). -/
structure State where
  /-- `TX_CAP`, `RX_CAP`, `ECC_BASE`: fixed for a machine (R6, R51) -/
  params : Config.Params
  /-- STATUS.ERR (R18) -/
  err : ErrCode
  /-- STATUS.NOCONS (R19) -/
  nocons : Bool
  /-- CODE_IN (R20) -/
  codeIn : Code
  /-- RESULT (R21) -/
  result : Code
  /-- BITS (R22) -/
  bits : BitVec 7
  /-- START (R23) -/
  start : BitVec 16
  /-- END (R24) -/
  endIdx : BitVec 16
  /-- TXLEN (R25) -/
  txLen : BitVec 16
  /-- RXLEN (R26) -/
  rxLen : BitVec 16
  /-- TICK_US (R27) -/
  tickUs : BitVec 16
  /-- UNIT_US (R28) -/
  unitUs : BitVec 16
  /-- CFG (R29) -/
  cfg : Cfg
  /-- REPCOUNT (R41) -/
  repCount : BitVec 2
  /-- REP0 (R42) -/
  rep0 : Code
  /-- REP1 (R42) -/
  rep1 : Code
  /-- REP2 (R42) -/
  rep2 : Code
  /-- TXBUF and RXBUF (R43, R44) -/
  mem : Memory
  /-- how many times reset was asserted: selects the free buffer contents (log 4) -/
  resets : Nat
  /-- the inputs still to come, the next one first (R130, log 6) -/
  inputs : List Input
  /-- the word the last host read gave back (R130, log 8) -/
  readData : Option Word
  /-- the pulses the last transmit hand-off gave the driver (R128, log 9) -/
  handedOff : List Pulse
  deriving DecidableEq, Repr

/-- Why the machine stops. -/
inductive Fault where
  /-- Raised by a host access whose address is outside the 64 KiB of the host register space
  (R48, R51): no such address exists in ECC. SAFE: the model stops where the platform would
  reach something that is not ECC (log 12). -/
  | outsideRegisterSpace
  deriving DecidableEq, Repr

/-- Why a step has no meaning. -/
inductive Refusal where
  /-- Raised by `exec` for an instruction that has no meaning yet. SAFE: nothing is claimed. -/
  | notModelled (mnemonic : String)
  /-- Raised by a host access that is not a 32-bit access at a word-aligned address: "A model
  refuses every other access" (R52, I5). SAFE: nothing is claimed. -/
  | accessNotAdmitted
  deriving DecidableEq, Repr

/-- CFG with every field 0 (R135, D16). -/
def Cfg.zero : Cfg :=
  { powerSetting := false, powerReal := false, mode := 0, fan := 0, swing := false,
    swingH := false, sleep := false, ifeel := false, temperature := 0, ifeelTemperature := 0 }

/-- The state after reset (R135): every register at the rule's value, no buffer entry listed.
The parameters are the spec's example values (log 1, 2); the model's own fields are empty
(log 4, 6, 8, 9). -/
def State.reset : State :=
  { params := Config.exampleParams
    err := .ok
    nocons := false
    codeIn := 0
    result := 0
    bits := 34
    start := 0
    endIdx := 0
    txLen := 0
    rxLen := 0
    tickUs := 0
    unitUs := 1000
    cfg := Cfg.zero
    repCount := 0
    rep0 := 0
    rep1 := 0
    rep2 := 0
    mem := { tx := [], rx := [] }
    resets := 0
    inputs := []
    readData := none
    handedOff := [] }

end Sys2Proof.Machine
end

