-- ==== Sys2Proof/Machine/Ops.lean ====
section
/-! DEFINITION. The shared operations: entries of the buffers, the polarity of an index, raising an
error and completing a command, the reset of the whole state. -/

namespace Sys2Proof.Machine

/-- `pol(j)`: "MARK if j mod 2 = 0 else SPACE" (R10). -/
def pol (j : Nat) : Polarity := if j % 2 = 0 then .mark else .space

/-! ## Buffer entries -/

/-- The value of entry `j`; an entry that is not listed has the value `free j`. -/
def entryAt {w : Nat} (free : Nat → BitVec w) : Entries w → Nat → BitVec w
  | [], j => free j
  | (k, v) :: rest, j => if k = j then v else entryAt free rest j

/-- Write entry `j`, keeping the indices rising. -/
def setEntry {w : Nat} : Entries w → Nat → BitVec w → Entries w
  | [], j, v => [(j, v)]
  | (k, u) :: rest, j, v =>
    if j < k then (j, v) :: (k, u) :: rest
    else if j = k then (j, v) :: rest
    else (k, u) :: setEntry rest j v

/-- The values of a list as consecutive entries from index `j`. -/
def entriesFrom {w : Nat} : Nat → List (BitVec w) → Entries w
  | _, [] => []
  | j, v :: vs => (j, v) :: entriesFrom (j + 1) vs

/-- Write the values of a list to entries 0, 1, 2, ...; every later entry stays. -/
def storeFromZero {w : Nat} (e : Entries w) (vs : List (BitVec w)) : Entries w :=
  entriesFrom 0 vs ++ e.filter (fun kv => decide (vs.length ≤ kv.1))

/-- The listed indices rise strictly from `lo` on and stay below `cap`. -/
def entriesRise {w : Nat} (cap : Nat) : Nat → Entries w → Bool
  | _, [] => true
  | lo, (k, _) :: rest => decide (lo ≤ k) && decide (k < cap) && entriesRise cap (k + 1) rest

/-- The canonical form of the memory: each buffer lists rising indices below its capacity
(R43, R44). -/
def Memory.wf (p : Config.Params) (m : Memory) : Bool :=
  entriesRise p.txCap 0 m.tx && entriesRise p.rxCap 0 m.rx

/-- `TX[j]` (R43). -/
def State.txAt (s : State) (j : Nat) : BitVec 16 :=
  entryAt (Config.txAtReset s.resets) s.mem.tx j

/-- `RX[j]` (R44). -/
def State.rxAt (s : State) (j : Nat) : BitVec 32 :=
  entryAt (Config.rxAtReset s.resets) s.mem.rx j

/-- `TX[j] <- v` for one entry. -/
def State.setTx (s : State) (j : Nat) (v : BitVec 16) : State :=
  { s with mem := { s.mem with tx := setEntry s.mem.tx j v } }

/-- `RX[j] <- v` for one entry. -/
def State.setRx (s : State) (j : Nat) (v : BitVec 32) : State :=
  { s with mem := { s.mem with rx := setEntry s.mem.rx j v } }

/-- "for j = 0 to len(seq) - 1: TX[j] <- seq[j]" (R95, R100). -/
def State.storeTx (s : State) (seq : List Nat) : State :=
  { s with mem := { s.mem with tx := storeFromZero s.mem.tx (seq.map (BitVec.ofNat 16)) } }

/-- The entries RX[0], RX[1], ... rewritten by a command from its unit sequence (R57). -/
def State.storeRx (s : State) (units : List Nat) : State :=
  { s with mem := { s.mem with rx := storeFromZero s.mem.rx (units.map (BitVec.ofNat 32)) } }

/-! ## The end of a command -/

/-- `raise Error(E)` (R123): every change of the command is discarded and STATUS.ERR holds the
code. This is ECC's whole exception entry: "ECC saves nothing else and changes no mode, mask or
stack. It has no vector, handler address or trap base register." There is no return from it
(R124). -/
def State.raise (e : ErrCode) (s : State) : State := { s with err := e }

/-- The end of a command that completes: `STATUS.ERR <- 0` (R67, R18). -/
def State.complete (s : State) : State := { s with err := .ok }

/-- The end of a command (R67, R123): the body's state with ERR 0, or, where the body raised an
error, the state from before the command with that error. -/
def finish (s : State) (body : Except ErrCode State) : Host.Outcome State Fault Refusal :=
  match body with
  | .ok t => .next t.complete
  | .error e => .next (s.raise e)

/-! ## Reset -/

/-- The reset input (R135): every register at its reset value, whatever the state before; the
buffers hold unspecified values again. The parameters, the inputs still to come and what the host
already got are not ECC's registers and stay (log 11). -/
def State.assertReset (s : State) : State :=
  { State.reset with
    params := s.params
    resets := s.resets + 1
    inputs := s.inputs
    readData := s.readData
    handedOff := s.handedOff }

end Sys2Proof.Machine
end

