-- ==== Sys2Proof/Machine/Control.lean ====
section
/-! DEFINITION. The control command NOP (45_control.md). -/

namespace Sys2Proof.Machine

/-- NOP (R116): nothing, but `STATUS.ERR <- 0`. -/
def execNop (s : State) : Host.Outcome State Fault Refusal := finish s (.ok s)

end Sys2Proof.Machine
end

