-- ==== Sys2Proof/Machine/FieldCodec.lean ====
section
/-! DEFINITION. The field codec (40_field_codec.md): PACK, UNPACK_APPLY, FENC and FDEC. -/

namespace Sys2Proof.Machine

/-- The power field: `cfg.power_setting xor cfg.power_real` (R80). -/
def powerField (c : Cfg) : Bool := c.powerSetting ^^ c.powerReal

/-- The 5-bit temperature payload (R81): `(ifeel_temperature - 5) mod 32` for a notify code,
`(temperature - 15) mod 16` in the low 4 bits otherwise. -/
def payload (c : Cfg) (n : Bool) : BitVec 5 :=
  if n then c.ifeelTemperature.setWidth 5 - 5#5
  else (c.temperature.setWidth 4 - 15#4).setWidth 5

/-- `PACK(cfg, n)` (R82). -/
def pack (c : Cfg) (n : Bool) : Code :=
  (BitVec.ofBool (powerField c)).setWidth 64 <<< 33
    ||| c.mode.setWidth 64 <<< 30
    ||| c.fan.setWidth 64 <<< 28
    ||| (BitVec.ofBool n).setWidth 64 <<< 27
    ||| (BitVec.ofBool c.swing).setWidth 64 <<< 25
    ||| (BitVec.ofBool c.ifeel).setWidth 64 <<< 24
    ||| (payload c n).setWidth 64 <<< 19
    ||| (BitVec.ofBool c.sleep).setWidth 64 <<< 18
    ||| 1#64 <<< 1

/-- `UNPACK_APPLY(cfg, code)` (R83, R84). power_setting and swing_h are never written. -/
def unpackApply (c : Cfg) (code : Code) : Cfg :=
  { c with
    powerReal := c.powerReal ^^ code.getLsbD 33
    mode := code.extractLsb' 30 3
    fan := code.extractLsb' 28 2
    swing := code.getLsbD 25
    ifeel := code.getLsbD 24
    sleep := code.getLsbD 18
    ifeelTemperature :=
      if code.getLsbD 27 then (code.extractLsb' 19 5).setWidth 6 + 5#6 else c.ifeelTemperature
    temperature :=
      if code.getLsbD 27 then c.temperature else (code.extractLsb' 19 4).setWidth 6 + 15#6 }

/-- The body of FENC with operand `n` (R85): `RESULT <- PACK(CFG, N)`. -/
def fencBody (n : Bool) (s : State) : Except ErrCode State :=
  .ok { s with result := pack s.cfg n }

/-- FENC (R85, N = 0). -/
def execFenc (s : State) : Host.Outcome State Fault Refusal := finish s (fencBody false s)

/-- FENC.N (R85, N = 1). -/
def execFencN (s : State) : Host.Outcome State Fault Refusal := finish s (fencBody true s)

/-- FDEC (R86): `UNPACK_APPLY(CFG, CODE_IN)`. -/
def execFdec (s : State) : Host.Outcome State Fault Refusal :=
  finish s (.ok { s with cfg := unpackApply s.cfg s.codeIn })

end Sys2Proof.Machine
end

