-- ==== Sys2Proof/Machine/Flags.lean ====
section
/-! DEFINITION. The STATUS register (R17): its codes, its word, and the NOCONS bit (R19). ECC has
no other flags (R46). -/

namespace Sys2Proof.Machine

/-- The number of an error code (R121). -/
def errBits : ErrCode → BitVec 3
  | .ok => 0
  | .illegalOp => 1
  | .badArg => 2
  | .emptySpace => 3
  | .txOverflow => 4

/-- The STATUS word: ERR in bits 2:0, NOCONS in bit 3, bits 31:4 "read as 0" (R17). -/
def statusWord (e : ErrCode) (nocons : Bool) : Word :=
  (errBits e).setWidth 32 ||| (BitVec.ofBool nocons).setWidth 32 <<< 3

/-- NOCONS after a command that voted: "set to 1 when the command's RESULT is 0", "set to 0 when
the command's RESULT is not 0" (R19). -/
def noConsensus (res : Code) : Bool := res == 0

end Sys2Proof.Machine
end

