-- ==== Sys2Proof/Machine/Operands.lean ====
section
/-! DEFINITION. The operands of the commands (R69): the buffers as sequences of numbers, the
64-bit registers as two words (R53), the CFG word (R29), and the argument checks (R121). -/

namespace Sys2Proof.Machine

/-! ## The buffers as sequences -/

/-- `[TX[0], ..., TX[n-1]]`, the working copy of R95. -/
def State.txSeq (s : State) (n : Nat) : List Nat :=
  (List.range n).map fun j => (s.txAt j).toNat

/-- `[RX[0], ..., RX[n-1]]` (R69). -/
def State.rxSeq (s : State) (n : Nat) : List Nat :=
  (List.range n).map fun j => (s.rxAt j).toNat

/-! ## The words of a 64-bit register (R53) -/

/-- Bits 31:0, the word at the lower address. -/
def loWord (c : Code) : Word := c.extractLsb' 0 32

/-- Bits 63:32, the word at the address 4 higher. -/
def hiWord (c : Code) : Word := c.extractLsb' 32 32

/-- Write bits 31:0 only. -/
def setLoWord (c : Code) (v : Word) : Code := hiWord c ++ v

/-- Write bits 63:32 only. -/
def setHiWord (c : Code) (v : Word) : Code := v ++ loWord c

/-! ## CFG as a word (R29) -/

/-- The CFG word: every field at its bits, the reserved bits 0 (R29, R40). -/
def cfgWord (c : Cfg) : Word :=
  (BitVec.ofBool c.powerSetting).setWidth 32
    ||| (BitVec.ofBool c.powerReal).setWidth 32 <<< 1
    ||| c.mode.setWidth 32 <<< 2
    ||| c.fan.setWidth 32 <<< 5
    ||| (BitVec.ofBool c.swing).setWidth 32 <<< 7
    ||| (BitVec.ofBool c.swingH).setWidth 32 <<< 8
    ||| (BitVec.ofBool c.sleep).setWidth 32 <<< 9
    ||| (BitVec.ofBool c.ifeel).setWidth 32 <<< 10
    ||| c.temperature.setWidth 32 <<< 16
    ||| c.ifeelTemperature.setWidth 32 <<< 24

/-- The CFG a written word gives: "Each field is stored as written" (R29); the reserved bits
"ignore host writes" (R40). -/
def cfgOfWord (w : Word) : Cfg :=
  { powerSetting := w.getLsbD 0
    powerReal := w.getLsbD 1
    mode := w.extractLsb' 2 3
    fan := w.extractLsb' 5 2
    swing := w.getLsbD 7
    swingH := w.getLsbD 8
    sleep := w.getLsbD 9
    ifeel := w.getLsbD 10
    temperature := w.extractLsb' 16 6
    ifeelTemperature := w.extractLsb' 24 6 }

/-! ## Argument checks (R121) -/

/-- The BAD_ARG causes of NORM, FRDEC and RX: "TICK_US = 0, or UNIT_US = 0, or RXLEN > RX_CAP". -/
def State.badCaptureArgs (s : State) : Bool :=
  s.tickUs == 0 || s.unitUs == 0 || decide (s.params.rxCap < s.rxLen.toNat)

/-- The BAD_ARG causes of MDEC: "RXLEN > RX_CAP, or END > RXLEN". -/
def State.badWindowArgs (s : State) : Bool :=
  decide (s.params.rxCap < s.rxLen.toNat) || decide (s.rxLen.toNat < s.endIdx.toNat)

/-- The BAD_ARG causes of MENC: "BITS > 64, or TXLEN > TX_CAP". -/
def State.badEncodeArgs (s : State) : Bool :=
  decide (64 < s.bits.toNat) || decide (s.params.txCap < s.txLen.toNat)

end Sys2Proof.Machine
end

