-- ==== Sys2Proof/Machine/ManchesterDecoder.lean ====
section
/-! DEFINITION. The tick normaliser and the Manchester decoder (43_manchester_decoder.md):
NORMFN, MDECFN, NORM and MDEC. A unit sequence is a list of numbers, index 0 first. -/

namespace Sys2Proof.Machine

/-- `NORMFN(x)` (R101): `min((x * TICK_US + (UNIT_US div 2)) div UNIT_US, 0xFFFFFFFF)`. -/
def normFn (tickUs unitUs x : Nat) : Nat :=
  min ((x * tickUs + unitUs / 2) / unitUs) 0xFFFFFFFF

/-- The capture RX[0..RXLEN-1] in units (R101). -/
def State.normalised (s : State) : List Nat :=
  (s.rxSeq s.rxLen.toNat).map (normFn s.tickUs.toNat s.unitUs.toNat)

/-- `rd(j)` (R103): `U[j]` inside the window, 0 at or beyond its end. -/
def windowRead (u : List Nat) (stop j : Nat) : Nat := if j < stop then u.getD j 0 else 0

/-- One more bit, "most-significant-first in the order decoded", mod 2^64 (R104). -/
def pushBit (acc : Code) (ph : Polarity) : Code :=
  2 * acc + (if ph = .mark then 0 else 1)

/-- The loop of `MDECFN` (R104), from position `i` in phase `ph`: the code and the rewritten
sequence. The first argument bounds the iterations; R104 gives the bound (log 19). -/
def mdecLoop : Nat → List Nat → Nat → Nat → Polarity → Code → Code × List Nat
  | 0, u, _, _, _, _ => (0, u)
  | fuel + 1, u, stop, i, ph, acc =>
    let v := windowRead u stop i
    let nx := windowRead u stop (i + 1)
    if v = 1 ∧ 0 < nx then
      if nx = 1 then
        mdecLoop fuel u stop (i + 2) ph (pushBit acc ph)
      else
        mdecLoop fuel (u.set (i + 1) (nx - 1)) stop (i + 1) ph.flip (pushBit acc ph)
    else if v = 3 ∨ v = 4 then (acc, u)
    else (0, u)

/-- `MDECFN(U, start, end)` (R104): "MDECFN stops after at most `end − start + 1` iterations". -/
def mdecFn (u : List Nat) (start stop : Nat) : Code × List Nat :=
  mdecLoop (stop - start + 1) u stop start (pol start) 0

/-- The body of NORM (R106). -/
def normBody (s : State) : Except ErrCode State :=
  if s.badCaptureArgs then .error .badArg
  else .ok (s.storeRx s.normalised)

/-- NORM (R106). -/
def execNorm (s : State) : Host.Outcome State Fault Refusal := finish s (normBody s)

/-- The body of MDEC (R107). -/
def mdecBody (s : State) : Except ErrCode State :=
  if s.badWindowArgs then .error .badArg
  else
    let (res, u) := mdecFn (s.rxSeq s.endIdx.toNat) s.start.toNat s.endIdx.toNat
    .ok { s.storeRx u with result := res }

/-- MDEC (R107). -/
def execMdec (s : State) : Host.Outcome State Fault Refusal := finish s (mdecBody s)

end Sys2Proof.Machine
end

