-- ==== Sys2Proof/Machine/FrameDecoder.lean ====
section
/-! DEFINITION. The frame decoder and the majority vote (44_frame_decoder.md): MAJ, FRAMEDEC,
FRDEC, VOTE and RX. -/

namespace Sys2Proof.Machine

/-- `MAJ(a, b, c)` (R109). -/
def maj (a b c : Code) : Code :=
  if a = b ∨ a = c then a else if b = c then b else 0

/-- The repetition boundary at index `k` (R108): where its payload starts, and the sequence after
the boundary's action. The merged form leaves 1 of the 4-unit space. -/
def boundaryAt (u : List Nat) (k : Nat) : Option (Nat × List Nat) :=
  if k % 2 = 0 ∧ u.getD k 0 = 3 ∧ u.getD (k + 1) 0 = 3 then
    some (k + 2, u)
  else if k % 2 = 0 ∧ u.getD k 0 = 3 ∧ u.getD (k + 1) 0 = 4 then
    some (k + 1, u.set (k + 1) (u.getD (k + 1) 0 - 3))
  else none

/-- The loop of `FRAMEDEC` (R110) from scan index `k`, with the candidates found so far: all
candidates, and the rewritten sequence. The first argument bounds the passes: "Every pass through
the loop increases k by at least 1" (log 19). -/
def scanLoop (n : Nat) : Nat → Nat → List Code → List Nat → List Code × List Nat
  | 0, _, reps, u => (reps, u)
  | fuel + 1, k, reps, u =>
    if reps.length < 3 ∧ k + 1 < n then
      match boundaryAt u k with
      | some (s, u) =>
        let (c, u) := mdecFn u s n
        scanLoop n fuel (k + 2) (reps ++ [c]) u
      | none => scanLoop n fuel (k + 1) reps u
    else (reps, u)

/-- What `FRAMEDEC` returns (R110), with the rewritten sequence. -/
structure FrameResult where
  res : Code
  rep0 : Code
  rep1 : Code
  rep2 : Code
  count : Nat
  units : List Nat
  deriving DecidableEq, Repr

/-- `FRAMEDEC(U, n)` (R110): "A repetition that is never found keeps rep[r] = 0". -/
def frameDec (u : List Nat) (n : Nat) : FrameResult :=
  let (reps, units) := scanLoop n n 0 [] u
  let rep := fun r => reps.getD r 0
  { res := maj (rep 0) (rep 1) (rep 2)
    rep0 := rep 0
    rep1 := rep 1
    rep2 := rep 2
    count := reps.length
    units := units }

/-- The body of FRDEC (R113). -/
def frdecBody (s : State) : Except ErrCode State :=
  if s.badCaptureArgs then .error .badArg
  else
    let f := frameDec s.normalised s.rxLen.toNat
    .ok { s.storeRx f.units with
          rep0 := f.rep0
          rep1 := f.rep1
          rep2 := f.rep2
          repCount := BitVec.ofNat 2 f.count
          result := f.res
          nocons := noConsensus f.res }

/-- FRDEC (R113). -/
def execFrdec (s : State) : Host.Outcome State Fault Refusal := finish s (frdecBody s)

/-- The body of VOTE (R114). -/
def voteBody (s : State) : Except ErrCode State :=
  let res := maj s.rep0 s.rep1 s.rep2
  .ok { s with result := res, nocons := noConsensus res }

/-- VOTE (R114). -/
def execVote (s : State) : Host.Outcome State Fault Refusal := finish s (voteBody s)

/-- The body of RX (R115): FRDEC, then UNPACK_APPLY when the result is not the failure sentinel. -/
def rxBody (s : State) : Except ErrCode State := do
  let t ← frdecBody s
  .ok (if t.result = 0 then t else { t with cfg := unpackApply t.cfg t.result })

/-- RX (R115). -/
def execRx (s : State) : Host.Outcome State Fault Refusal := finish s (rxBody s)

end Sys2Proof.Machine
end

