-- ==== Sys2Proof/Machine/ManchesterEncoder.lean ====
section
/-! DEFINITION. The Manchester encoder with pulse coalescer (41_manchester_encoder.md): EMIT,
ENCODE_BITS and MENC. A sequence is a list of durations in units, index 0 first (R75). -/

namespace Sys2Proof.Machine

/-- `EMIT(seq, p, d)` (R91): merge into the last entry when it has polarity `p`, else append; an
empty sequence takes only a mark. -/
def emit (seq : List Nat) (p : Polarity) (d : Nat) : Except ErrCode (List Nat) :=
  if 0 < seq.length ∧ pol (seq.length - 1) = p then
    .ok (seq.modify (seq.length - 1) (· + d))
  else if seq.length = 0 ∧ p = .space then
    .error .emptySpace
  else
    .ok (seq ++ [d])

/-- The two halves of one bit (R90): 0 is a mark then a space, 1 is a space then a mark. -/
def emitBit (seq : List Nat) (b : Bool) : Except ErrCode (List Nat) := do
  let first ← emit seq (if b then .space else .mark) 1
  emit first (if b then .mark else .space) 1

/-- `ENCODE_BITS(seq, code, nbits)` (R92): bits `nbits - 1` down to 0. -/
def encodeBits (code : Code) : Nat → List Nat → Except ErrCode (List Nat)
  | 0, seq => .ok seq
  | k + 1, seq => do
    let seq ← emitBit seq (code.getLsbD k)
    encodeBits code k seq

/-- MENC does not fit its result into TXBUF (R95): "len(seq) > TX_CAP or some seq[j] > 0xFFFF". -/
def txOverflows (txCap : Nat) (seq : List Nat) : Bool :=
  decide (txCap < seq.length) || seq.any (fun d => decide (0xFFFF < d))

/-- The body of MENC (R95). -/
def mencBody (s : State) : Except ErrCode State :=
  if s.badEncodeArgs then .error .badArg
  else do
    let seq ← encodeBits s.codeIn s.bits.toNat (s.txSeq s.txLen.toNat)
    if txOverflows s.params.txCap seq then .error .txOverflow
    else .ok { s.storeTx seq with txLen := BitVec.ofNat 16 seq.length }

/-- MENC (R95). -/
def execMenc (s : State) : Host.Outcome State Fault Refusal := finish s (mencBody s)

end Sys2Proof.Machine
end

