-- ==== Sys2Proof/Machine/FrameEncoder.lean ====
section
/-! DEFINITION. The frame encoder (42_frame_encoder.md): FRAME and FRENC. -/

namespace Sys2Proof.Machine

/-- "34 low-order bits are significant" (R7, `CODE_BITS`). -/
def codeBits : Nat := 34

/-- The repetitions of a frame (R7). -/
def repetitions : Nat := 3

/-- `r` repetitions (R96): a 3-unit mark, a 3-unit space, then the payload, each through EMIT. -/
def emitRepetitions (code : Code) : Nat → List Nat → Except ErrCode (List Nat)
  | 0, seq => .ok seq
  | r + 1, seq => do
    let seq ← emit seq .mark 3
    let seq ← emit seq .space 3
    let seq ← encodeBits code codeBits seq
    emitRepetitions code r seq

/-- `FRAME(code)` (R96): three repetitions, then the 4-unit sentinel mark. -/
def frame (code : Code) : Except ErrCode (List Nat) := do
  let seq ← emitRepetitions code repetitions []
  emit seq .mark 4

/-- The body of FRENC with operand `n` (R100). -/
def frencBody (n : Bool) (s : State) : Except ErrCode State := do
  let c := pack s.cfg n
  let seq ← frame c
  .ok { s.storeTx seq with txLen := BitVec.ofNat 16 seq.length, result := c }

/-- FRENC (R100, N = 0). -/
def execFrenc (s : State) : Host.Outcome State Fault Refusal := finish s (frencBody false s)

/-- FRENC.N (R100, N = 1). -/
def execFrencN (s : State) : Host.Outcome State Fault Refusal := finish s (frencBody true s)

end Sys2Proof.Machine
end

