-- ==== Sys2Proof/Machine/Dispatch.lean ====
section
/-! DEFINITION. The dispatch of the commands, one arm per constructor (R66). -/

namespace Sys2Proof.Machine

/-- Run command `i` (R67: "run the command's rule with operand n"). -/
def exec (i : Instr) (s : State) : Host.Outcome State Fault Refusal :=
  match i with
  | .nop => Sys2Proof.Machine.execNop s
  | .fenc => Sys2Proof.Machine.execFenc s
  | .fencN => Sys2Proof.Machine.execFencN s
  | .fdec => Sys2Proof.Machine.execFdec s
  | .menc => Sys2Proof.Machine.execMenc s
  | .frenc => Sys2Proof.Machine.execFrenc s
  | .frencN => Sys2Proof.Machine.execFrencN s
  | .norm => Sys2Proof.Machine.execNorm s
  | .mdec => Sys2Proof.Machine.execMdec s
  | .frdec => Sys2Proof.Machine.execFrdec s
  | .vote => Sys2Proof.Machine.execVote s
  | .rx => Sys2Proof.Machine.execRx s

end Sys2Proof.Machine
end

