-- ==== Sys2Proof/Machine/HostMoves.lean ====
section
/-! DEFINITION. The host interface (20_memory.md R47 to R56, 60_exceptions.md R128 to R130): the
address map, register reads and writes, the issue of a command, the hand-offs and the reset input. -/

namespace Sys2Proof.Machine

/-! ## The address map (R49) -/

/-- The word at byte offset `off` of the host register space; offsets are word-aligned. -/
def regAt (p : Config.Params) (off : Nat) : Reg :=
  if 0x1000 ≤ off ∧ off < 0x1000 + 4 * p.txCap then .tx ((off - 0x1000) / 4)
  else if 0x2000 ≤ off ∧ off < 0x2000 + 4 * p.rxCap then .rx ((off - 0x2000) / 4)
  else
    match off with
    | 0x000 => .cmd
    | 0x004 => .status
    | 0x008 => .codeInLo
    | 0x00C => .codeInHi
    | 0x010 => .resultLo
    | 0x014 => .resultHi
    | 0x018 => .bits
    | 0x01C => .start
    | 0x020 => .endIdx
    | 0x024 => .txLen
    | 0x028 => .rxLen
    | 0x02C => .tickUs
    | 0x030 => .unitUs
    | 0x034 => .cfg
    | 0x038 => .repCount
    | 0x040 => .rep0Lo
    | 0x044 => .rep0Hi
    | 0x048 => .rep1Lo
    | 0x04C => .rep1Hi
    | 0x050 => .rep2Lo
    | 0x054 => .rep2Hi
    | _ => .reserved

/-! ## Register reads and writes -/

/-- The word a host read of `r` returns (R49): the register's defined bits, every other bit 0;
CMD and reserved words read 0 (R16, R50). -/
def readReg (s : State) : Reg → Word
  | .cmd => 0
  | .status => statusWord s.err s.nocons
  | .codeInLo => loWord s.codeIn
  | .codeInHi => hiWord s.codeIn
  | .resultLo => loWord s.result
  | .resultHi => hiWord s.result
  | .bits => s.bits.setWidth 32
  | .start => s.start.setWidth 32
  | .endIdx => s.endIdx.setWidth 32
  | .txLen => s.txLen.setWidth 32
  | .rxLen => s.rxLen.setWidth 32
  | .tickUs => s.tickUs.setWidth 32
  | .unitUs => s.unitUs.setWidth 32
  | .cfg => cfgWord s.cfg
  | .repCount => s.repCount.setWidth 32
  | .rep0Lo => loWord s.rep0
  | .rep0Hi => hiWord s.rep0
  | .rep1Lo => loWord s.rep1
  | .rep1Hi => hiWord s.rep1
  | .rep2Lo => loWord s.rep2
  | .rep2Hi => hiWord s.rep2
  | .tx j => (s.txAt j).setWidth 32
  | .rx j => s.rxAt j
  | .reserved => 0

/-- A host write of `v` to a register other than CMD (R49): "stores the defined bits". STATUS,
RESULT, REPCOUNT and reserved words ignore it (R17, R21, R41, R50). A write to CMD stores nothing
(R16); `hostWrite` issues its command. -/
def writeReg (s : State) (r : Reg) (v : Word) : State :=
  match r with
  | .cmd | .status | .resultLo | .resultHi | .repCount | .reserved => s
  | .codeInLo => { s with codeIn := setLoWord s.codeIn v }
  | .codeInHi => { s with codeIn := setHiWord s.codeIn v }
  | .bits => { s with bits := v.setWidth 7 }
  | .start => { s with start := v.setWidth 16 }
  | .endIdx => { s with endIdx := v.setWidth 16 }
  | .txLen => { s with txLen := v.setWidth 16 }
  | .rxLen => { s with rxLen := v.setWidth 16 }
  | .tickUs => { s with tickUs := v.setWidth 16 }
  | .unitUs => { s with unitUs := v.setWidth 16 }
  | .cfg => { s with cfg := cfgOfWord v }
  | .rep0Lo => { s with rep0 := setLoWord s.rep0 v }
  | .rep0Hi => { s with rep0 := setHiWord s.rep0 v }
  | .rep1Lo => { s with rep1 := setLoWord s.rep1 v }
  | .rep1Hi => { s with rep1 := setHiWord s.rep1 v }
  | .rep2Lo => { s with rep2 := setLoWord s.rep2 v }
  | .rep2Hi => { s with rep2 := setHiWord s.rep2 v }
  | .tx j => s.setTx j (v.setWidth 16)
  | .rx j => s.setRx j v

/-! ## Commands -/

/-- A word written to CMD (R67): a legal word runs its command, any other raises ILLEGAL_OP. -/
def runCommandWord (s : State) (w : Word) : Host.Outcome State Fault Refusal :=
  match decode w with
  | .ok i => exec i s
  | .error _ => .next (s.raise .illegalOp)

/-! ## Host accesses -/

/-- "The only admitted host access is a 32-bit access at a word-aligned address" (R52). -/
def accessAdmitted (addr size : Nat) : Bool := size == 4 && addr % 4 == 0

/-- The address lies in the 64 KiB host register space at ECC_BASE (R48, R51). -/
def inRegisterSpace (p : Config.Params) (addr : Nat) : Bool :=
  decide (p.eccBase ≤ addr) && decide (addr < p.eccBase + 0x10000)

/-- A host access: refused, faulting, or done at the register its address names. -/
def hostAccess (s : State) (addr size : Nat)
    (access : Reg → Host.Outcome State Fault Refusal) : Host.Outcome State Fault Refusal :=
  if ¬ accessAdmitted addr size then .refused .accessNotAdmitted
  else if ¬ inRegisterSpace s.params addr then .fault .outsideRegisterSpace
  else access (regAt s.params (addr - s.params.eccBase))

/-- `MemRead`: gives the host the word and changes nothing in ECC (R56, R130). -/
def hostRead (s : State) (r : Reg) : Host.Outcome State Fault Refusal :=
  .next { s with readData := some (readReg s r) }

/-- `MemWrite`: a write to CMD runs a command (R16), any other stores the defined bits (R130). -/
def hostWrite (s : State) (v : Word) (r : Reg) : Host.Outcome State Fault Refusal :=
  match r with
  | .cmd => runCommandWord s v
  | r => .next (writeReg s r v)

/-! ## Hand-offs -/

/-- The pulses the transmit driver emits for TX[0..TXLEN-1] (R128): entry j at polarity `pol(j)`
for `TX[j] * UNIT_US` microseconds.
DESIGN CHOICE (log 9): the entries and their number are those of the hand-off, because R128 and R140
do not say what the driver emits when TXBUF or TXLEN changes while it sends (a host that breaks its
duty, or a reset); every duration is fixed with the UNIT_US of the hand-off, because R128 does not
say what a write to UNIT_US does while the driver emits; and an entry that TXBUF does not have
(TXLEN above TX_CAP) is not handed over. -/
def transmitPulses (s : State) : List Pulse :=
  (List.range (min s.txLen.toNat s.params.txCap)).map fun j =>
    { polarity := pol j, micros := (s.txAt j).toNat * s.unitUs.toNat }

/-- The level of the transmit line `t` microseconds after the hand-off that gave the driver these
pulses: each in turn for its duration, and "After the last entry the line returns to idle (SPACE)"
(R128, D43). -/
def lineLevel : List Pulse → Nat → Polarity
  | [], _ => .space
  | p :: rest, t => if t < p.micros then p.polarity else lineLevel rest (t - p.micros)

/-! ## One input -/

/-- One input of R130, or the reset input (R135). -/
def runInput (s : State) : Input → Host.Outcome State Fault Refusal
  | .read addr size => hostAccess s addr size (hostRead s)
  | .write addr size v => hostAccess s addr size (hostWrite s v)
  | .transmitHandOff => .next { s with handedOff := transmitPulses s }
  | .captureHandOff _ _ => .next s
  | .reset => .next s.assertReset

/-- Take the next input; with none waiting nothing changes: "Its state persists between accesses"
(R134, log 6). -/
def runNextInput (s : State) : Host.Outcome State Fault Refusal :=
  match s.inputs with
  | [] => .next s
  | m :: rest => runInput { s with inputs := rest } m

/-- The move that issues command word `w` (R78). -/
def commandMove (p : Config.Params) (w : Word) : Input := .write (p.eccBase + 0x000) 4 w

end Sys2Proof.Machine
end

