-- ==== Sys2Proof/Machine/Step.lean ====
section
/-! DEFINITION. One step of ECC: the next input takes effect, whole (R58). -/

namespace Sys2Proof.Machine

/-- One step: the next input, atomically (R58, R130). -/
def step (s : State) : Host.Outcome State Fault Refusal := runNextInput s

/-- `s` with the host about to write the word `w` to CMD: ECC fetches nothing (R15, R62), its
next command is the next word the host writes there (log 7). -/
def State.withFetchWord (s : State) (nbits w : Nat) : State :=
  { s with inputs := commandMove s.params (BitVec.ofNat 32 (w % 2 ^ nbits)) :: s.inputs }

end Sys2Proof.Machine
end

