-- ==== Sys2Proof/Machine/Assembly.lean ====
section
/-! DEFINITION. The host-side assembly of R78 and R79, as data: each statement and pseudo-instruction
with the host moves it stands for. The text form (numbers, commas, comments) is not modelled
(log 22). -/

namespace Sys2Proof.Machine

/-- `offset(REG)`: the address of a register in the map of R49. `reserved` stands for the reserved
word 0x03C. -/
def regOffset : Reg → Nat
  | .cmd => 0x000
  | .status => 0x004
  | .codeInLo => 0x008
  | .codeInHi => 0x00C
  | .resultLo => 0x010
  | .resultHi => 0x014
  | .bits => 0x018
  | .start => 0x01C
  | .endIdx => 0x020
  | .txLen => 0x024
  | .rxLen => 0x028
  | .tickUs => 0x02C
  | .unitUs => 0x030
  | .cfg => 0x034
  | .repCount => 0x038
  | .reserved => 0x03C
  | .rep0Lo => 0x040
  | .rep0Hi => 0x044
  | .rep1Lo => 0x048
  | .rep1Hi => 0x04C
  | .rep2Lo => 0x050
  | .rep2Hi => 0x054
  | .tx j => 0x1000 + 4 * j
  | .rx j => 0x2000 + 4 * j

/-- `wr REG, imm32` as a host move (R78). -/
def writeMove (p : Config.Params) (r : Reg) (v : Word) : Input :=
  .write (p.eccBase + regOffset r) 4 v

/-- `rd REG` as a host move (R78). -/
def readMove (p : Config.Params) (r : Reg) : Input := .read (p.eccBase + regOffset r) 4

/-- The 64-bit registers `rd64` names (R79). -/
inductive Reg64 where
  | codeIn | result | rep0 | rep1 | rep2
  deriving DecidableEq, Repr

/-- `R.LO` of R79. -/
def lowRegOf : Reg64 → Reg
  | .codeIn => .codeInLo
  | .result => .resultLo
  | .rep0 => .rep0Lo
  | .rep1 => .rep1Lo
  | .rep2 => .rep2Lo

/-- `R.HI` of R79. -/
def highRegOf : Reg64 → Reg
  | .codeIn => .codeInHi
  | .result => .resultHi
  | .rep0 => .rep0Hi
  | .rep1 => .rep1Hi
  | .rep2 => .rep2Hi

/-- The statements of R78 and the pseudo-instructions of R79. -/
inductive AsmStmt where
  | wr (r : Reg) (v : Word)
  | rd (r : Reg)
  | command (i : Instr)
  | wr64 (r : Reg64) (v : Code)
  | rd64 (r : Reg64)
  | ldtx (vs : List Word)
  | ldrx (vs : List Word)
  /-- the named fields at their values, every unnamed field 0 -/
  | wrcfg (c : Cfg)
  | txclr
  deriving DecidableEq, Repr

/-- The names R78 admits as REG, at these capacities. `reserved` is none of them. R49 gives an entry
an address only below its buffer's capacity, and R78 does not say what `TX[j]` or `RX[j]` means
beyond it: the model takes it as no REG. DESIGN CHOICE (log 22). -/
def regNamed (p : Config.Params) : Reg → Bool
  | .reserved => false
  | .tx j => decide (j < p.txCap)
  | .rx j => decide (j < p.rxCap)
  | .cmd | .status | .codeInLo | .codeInHi | .resultLo | .resultHi | .bits | .start | .endIdx
  | .txLen | .rxLen | .tickUs | .unitUs | .cfg | .repCount
  | .rep0Lo | .rep0Hi | .rep1Lo | .rep1Hi | .rep2Lo | .rep2Hi => true

/-- The statements R78 and R79 give a meaning: `wr64` takes "R in CODE_IN, REP0, REP1, REP2" (R79), so
not RESULT. R79 does not say what a list of more values than the buffer has entries means: the
model takes it as ill formed. DESIGN CHOICE (log 22). The moves `stmtMoves` gives an ill-formed
statement mean nothing. -/
def stmtWellFormed (p : Config.Params) : AsmStmt → Bool
  | .wr r _ | .rd r => regNamed p r
  | .wr64 r _ => r != .result
  | .ldtx vs => decide (vs.length ≤ p.txCap)
  | .ldrx vs => decide (vs.length ≤ p.rxCap)
  | .command _ | .rd64 _ | .wrcfg _ | .txclr => true

/-- The writes of `ldtx` and `ldrx`: entry j from j on, in order (R79). -/
def loadMoves (p : Config.Params) (entry : Nat → Reg) : Nat → List Word → List Input
  | _, [] => []
  | j, v :: vs => writeMove p (entry j) v :: loadMoves p entry (j + 1) vs

/-- The host moves a statement stands for (R78, R79). -/
def stmtMoves (p : Config.Params) : AsmStmt → List Input
  | .wr r v => [writeMove p r v]
  | .rd r => [readMove p r]
  | .command i => [writeMove p .cmd (encode i)]
  | .wr64 r v => [writeMove p (lowRegOf r) (loWord v), writeMove p (highRegOf r) (hiWord v)]
  | .rd64 r => [readMove p (lowRegOf r), readMove p (highRegOf r)]
  | .ldtx vs => loadMoves p .tx 0 vs ++ [writeMove p .txLen (BitVec.ofNat 32 vs.length)]
  | .ldrx vs => loadMoves p .rx 0 vs ++ [writeMove p .rxLen (BitVec.ofNat 32 vs.length)]
  | .wrcfg c => [writeMove p .cfg (cfgWord c)]
  | .txclr => [writeMove p .txLen 0]

/-- The host moves of a program, in its order. -/
def programMoves (p : Config.Params) (prog : List AsmStmt) : List Input :=
  prog.flatMap (stmtMoves p)

end Sys2Proof.Machine
end

