-- ==== Sys2Proof/Safety.lean ====
section
/-! DEFINITION. What counts as a safe run: the host's duties (R131, with R61, R128, R129, R136, R137,
R140) as a monitor over what the host does. "ECC does not check them, and a model takes them as
premises of a run", so the step knows nothing of this file. Where the rules leave a duty open the
reading is the model's: DESIGN CHOICE (log 20, log 24). -/

namespace Sys2Proof.Safety

open Sys2Proof.Machine

/-- How far the host is with the last capture the receive driver gave it (R61, R129). -/
inductive Capture where
  /-- there is none, or a decode has consumed it (R131.3) -/
  | absent
  /-- it was handed over and no command has rewritten it: tick counts and conversion constant -/
  | handed (counts : List Word) (tickUs : BitVec 16)
  /-- NORM has rewritten it in units, and no decode has consumed it -/
  | normalised
  deriving DecidableEq, Repr

/-- What the host must remember to keep its duties. -/
structure Monitor where
  /-- the transmit driver has not yet emitted the last entry of the last hand-off (R61, R140) -/
  transmitting : Bool
  /-- TX[0..TXLEN-1] is "as left by FRENC or MENC" (R61, R128) -/
  encoded : Bool
  /-- the capture to decode next -/
  capture : Capture
  /-- the host has loaded CFG as R136.1 asks since the last reset (R131.5) -/
  cfgLoaded : Bool
  deriving DecidableEq, Repr

/-- After reset (R143) nothing is being sent, encoded, captured or loaded. -/
def Monitor.start : Monitor :=
  { transmitting := false, encoded := false, capture := .absent, cfgLoaded := false }

/-- What the host and the drivers do, in order. -/
inductive Event where
  /-- an input reaches ECC -/
  | input (m : Input)
  /-- the transmit driver has emitted the last entry; ECC does not see it (R143) -/
  | driverDone
  deriving DecidableEq, Repr

/-! ## What a move does -/

/-- The register a move writes, with the word, when the move is an admitted write. -/
def writtenReg (p : Config.Params) : Input → Option (Reg × Word)
  | .write addr size v =>
    if accessAdmitted addr size && inRegisterSpace p addr
    then some (regAt p (addr - p.eccBase), v) else none
  | .read _ _ | .transmitHandOff | .captureHandOff _ _ | .reset => none

/-- The command a move issues, if it issues one (R16, R67). -/
def issuedCommand (p : Config.Params) (m : Input) : Option Instr :=
  match writtenReg p m with
  | some (.cmd, w) => (decode w).toOption
  | _ => none

/-- The move is an access ECC admits, or a hand-off (R52, R130). -/
def moveAdmitted (p : Config.Params) : Input → Bool
  | .read addr size | .write addr size _ => accessAdmitted addr size && inRegisterSpace p addr
  | .transmitHandOff | .captureHandOff _ _ | .reset => true

/-- The commands that encode onto TXBUF (R131.1). -/
def writesTransmitBuffer : Instr → Bool
  | .menc | .frenc | .frencN => true
  | .nop | .fenc | .fencN | .fdec | .norm | .mdec | .frdec | .vote | .rx => false

/-- The commands the host issues only on a loaded capture: "only then issues NORM, MDEC, FRDEC or
RX" (R61). -/
def readsCapture : Instr → Bool
  | .norm | .mdec | .frdec | .rx => true
  | .nop | .fenc | .fencN | .fdec | .menc | .frenc | .frencN | .vote => false

/-- The commands that use TICK_US (R69), which refuse its reset value (R136.3). -/
def usesTick : Instr → Bool
  | .norm | .frdec | .rx => true
  | .nop | .fenc | .fencN | .fdec | .menc | .frenc | .frencN | .mdec | .vote => false

/-- The commands that use CFG (R69, R115). -/
def usesCfg : Instr → Bool
  | .fenc | .fencN | .frenc | .frencN | .fdec | .rx => true
  | .nop | .menc | .norm | .mdec | .frdec | .vote => false

/-- The move writes TXBUF or TXLEN itself. -/
def writesTransmit (p : Config.Params) (m : Input) : Bool :=
  match writtenReg p m with
  | some (.tx _, _) | some (.txLen, _) => true
  | _ => false

/-- The move writes RXBUF or RXLEN itself. -/
def writesCapture (p : Config.Params) (m : Input) : Bool :=
  match writtenReg p m with
  | some (.rx _, _) | some (.rxLen, _) => true
  | _ => false

/-- The move changes TXBUF or TXLEN: "no MENC or FRENC, and no write to TXBUF or TXLEN" (R131.1). -/
def touchesTransmit (p : Config.Params) (m : Input) : Bool :=
  writesTransmit p m || (issuedCommand p m).any writesTransmitBuffer

/-! ## The ranges of the configuration (R131.4, R136.1) -/

/-- A mode that names a mode (R73). -/
def modeInRange (c : Cfg) : Bool := decide (1 ≤ c.mode.toNat) && decide (c.mode.toNat ≤ 5)

/-- A set-point in its valid range (R38). -/
def temperatureInRange (c : Cfg) : Bool :=
  decide (15 ≤ c.temperature.toNat) && decide (c.temperature.toNat ≤ 30)

/-- An ambient reading in its valid range (R39). -/
def ifeelTemperatureInRange (c : Cfg) : Bool :=
  decide (5 ≤ c.ifeelTemperature.toNat) && decide (c.ifeelTemperature.toNat ≤ 36)

/-- The record R136.1 asks the host to load: "a temperature in 15..30, an ifeel_temperature in 5..36, a
mode in 1..5". -/
def recordValid (c : Cfg) : Bool :=
  modeInRange c && temperatureInRange c && ifeelTemperatureInRange c

/-- "callers are responsible for range-checking before encoding" (R131.4): the fields the command
packs are in range. -/
def encodesInRange (c : Cfg) : Instr → Bool
  | .fenc | .frenc => modeInRange c && temperatureInRange c
  | .fencN | .frencN => modeInRange c && ifeelTemperatureInRange c
  | .nop | .fdec | .menc | .norm | .mdec | .frdec | .vote | .rx => true

/-! ## The duties -/

/-- RXBUF, RXLEN and TICK_US hold the capture, so it may be decoded (R61, R129, R136.3). After NORM the
entries are units, and only the host's own writes could lose them (`Monitor.after`). -/
def captureLoaded (mon : Monitor) (s : State) : Bool :=
  decide (s.rxLen.toNat ≤ s.params.rxCap) &&
    match mon.capture with
    | .absent => false
    | .handed counts tickUs =>
      s.rxLen.toNat == counts.length && s.tickUs == tickUs
        && s.rxSeq counts.length == counts.map BitVec.toNat
    | .normalised => true

/-- The host may issue this command now: on a loaded capture (R61, R131.3), with its fields in range
(R131.4), after TICK_US and CFG are loaded (R131.5, R136). -/
def commandAllowed (mon : Monitor) (s : State) (i : Instr) : Bool :=
  (!readsCapture i || captureLoaded mon s)
  && (!usesTick i || s.tickUs != 0)
  && (!usesCfg i || mon.cfgLoaded)
  && encodesInRange s.cfg i

/-- The host may make this move now (R131).
DESIGN CHOICE (log 20): reset may be asserted while the driver emits, although it sets TXLEN to 0.
R140 says that TXBUF and TXLEN must not change then, but R131.1 and R61 name only the host's
commands and writes, and R130 does not count the reset input among the host's moves. -/
def hostMay (mon : Monitor) (s : State) (m : Input) : Bool :=
  moveAdmitted s.params m
  && !(mon.transmitting && (touchesTransmit s.params m || m == .transmitHandOff))
  && (m != .transmitHandOff || mon.encoded)
  && (issuedCommand s.params m).all (commandAllowed mon s)

/-! ## What the host remembers -/

/-- A capture after a command that completed: NORM rewrites it, and "After FRDEC, RX or MDEC" it is
consumed (R131.3, R137). -/
def Capture.afterCommand (c : Capture) : Instr → Capture
  | .norm => .normalised
  | .mdec | .frdec | .rx => .absent
  | .nop | .fenc | .fencN | .fdec | .menc | .frenc | .frencN | .vote => c

/-- What the host remembers after a command that left the state `t`: a command that was abandoned
changed nothing (R123). -/
def Monitor.afterCommand (mon : Monitor) (i : Instr) (t : State) : Monitor :=
  if t.err = .ok then
    { mon with encoded := mon.encoded || writesTransmitBuffer i
               capture := mon.capture.afterCommand i }
  else mon

/-- What the host remembers after its own write, which left the state `t`: a hand-written TXBUF or
TXLEN is not as an encode left it, a hand-written RXBUF or RXLEN is no normalised capture, and a
valid record in CFG is loaded. -/
def Monitor.afterWrite (mon : Monitor) (p : Config.Params) (m : Input) (t : State) : Monitor :=
  { mon with
    encoded := mon.encoded && !writesTransmit p m
    capture := if writesCapture p m && mon.capture == .normalised then .absent else mon.capture
    cfgLoaded := mon.cfgLoaded ||
      match writtenReg p m with
      | some (.cfg, _) => recordValid t.cfg
      | _ => false }

/-- What the host remembers after a move that left the state `t`. Reset undoes what the host had
loaded and encoded; a capture it was handed and has not yet decoded it can load again. -/
def Monitor.after (mon : Monitor) (p : Config.Params) (m : Input) (t : State) : Monitor :=
  match m with
  | .transmitHandOff => { mon with transmitting := true }
  | .captureHandOff counts tickUs => { mon with capture := .handed counts tickUs }
  | .reset =>
    { mon with encoded := false, cfgLoaded := false
               capture := if mon.capture = .normalised then .absent else mon.capture }
  | .read _ _ => mon
  | .write _ _ _ =>
    match issuedCommand p m with
    | some i => mon.afterCommand i t
    | none => mon.afterWrite p m t

/-- A run in which the host keeps its duties and no step stops. -/
def dutifulRun (mon : Monitor) (s : State) : List Event → Bool
  | [] => true
  | .driverDone :: rest => dutifulRun { mon with transmitting := false } s rest
  | .input m :: rest =>
    hostMay mon s m &&
      match runInput s m with
      | .next t => dutifulRun (mon.after s.params m t) t rest
      | .fault _ | .refused _ => false

end Sys2Proof.Safety
end

