-- ==== Sys2Proof/Certificates/Slice0/Obligations.lean ====
section
/-! DEFINITION. The statements for the provers. The definitions before them say what the rules of the
spec say in numbers, relations and half-unit waveforms, apart from the model's own functions. -/

namespace Sys2Proof.Spec

open Sys2Proof.Machine

/-! ## The protocol code as a number (R8, R70) -/

/-- `v[k]` as a number (R8). -/
def bitOf (c : Code) (k : Nat) : Nat := c.toNat / 2 ^ k % 2

/-- `v[hi:lo]` (R8). -/
def fieldOf (c : Code) (hi lo : Nat) : Nat := c.toNat / 2 ^ lo % 2 ^ (hi + 1 - lo)

/-- The payload of R81, in integers reduced by an explicit mod. -/
def payloadValue (c : Cfg) (n : Bool) : Nat :=
  if n then (((c.ifeelTemperature.toNat : Int) - 5) % 32).toNat
  else (((c.temperature.toNat : Int) - 15) % 16).toNat

/-- The code of R82 as a sum of its fields at their places. -/
def packedValue (c : Cfg) (n : Bool) : Nat :=
  (if c.powerSetting = c.powerReal then 0 else 1) * 2 ^ 33
    + c.mode.toNat * 2 ^ 30 + c.fan.toNat * 2 ^ 28 + n.toNat * 2 ^ 27
    + c.swing.toNat * 2 ^ 25 + c.ifeel.toNat * 2 ^ 24
    + payloadValue c n * 2 ^ 19 + c.sleep.toNat * 2 ^ 18 + 2

/-- The record R84 leaves, in numbers. -/
def unpackedCfg (c : Cfg) (code : Code) : Cfg :=
  { c with
    powerReal := if bitOf code 33 = 1 then !c.powerReal else c.powerReal
    mode := BitVec.ofNat 3 (fieldOf code 32 30)
    fan := BitVec.ofNat 2 (fieldOf code 29 28)
    swing := bitOf code 25 == 1
    ifeel := bitOf code 24 == 1
    sleep := bitOf code 18 == 1
    ifeelTemperature :=
      if bitOf code 27 = 1 then BitVec.ofNat 6 (fieldOf code 23 19 + 5) else c.ifeelTemperature
    temperature :=
      if bitOf code 27 = 1 then c.temperature else BitVec.ofNat 6 (fieldOf code 22 19 + 15) }

/-- The inputs R87 speaks of: temperature in 15..30, ifeel_temperature in 5..36, mode in 1..5. -/
def InRange (c : Cfg) : Prop :=
  15 ≤ c.temperature.toNat ∧ c.temperature.toNat ≤ 30
  ∧ 5 ≤ c.ifeelTemperature.toNat ∧ c.ifeelTemperature.toNat ≤ 36
  ∧ 1 ≤ c.mode.toNat ∧ c.mode.toNat ≤ 5

/-- A well-formed code (R72). -/
def WellFormedCode (c : Code) : Prop :=
  c.toNat < 2 ^ 34 ∧ bitOf c 26 = 0 ∧ fieldOf c 17 2 = 0 ∧ bitOf c 0 = 0 ∧ bitOf c 1 = 1
  ∧ 1 ≤ fieldOf c 32 30 ∧ fieldOf c 32 30 ≤ 5 ∧ (bitOf c 27 = 0 → bitOf c 23 = 0)

/-! ## Command words (R64, R68) -/

/-- An illegal command word (R68), by the number it is. -/
def IllegalCommandWord (w : Word) : Prop :=
  w.toNat / 32 ≠ 0 ∨ 0xA ≤ w.toNat % 16
  ∨ (w.toNat / 16 % 2 = 1 ∧ w.toNat % 16 ≠ 0x1 ∧ w.toNat % 16 ≠ 0x4)

/-- The commands that write NOCONS (R19). -/
def votes (i : Instr) : Bool := i == .frdec || i == .vote || i == .rx

/-! ## Waveforms: a sequence as half-units (R75, R90) -/

/-- The half-unit waveform of a sequence whose first entry has index `j`. -/
def waveformFrom : Nat → List Nat → List Polarity
  | _, [] => []
  | j, d :: ds =>
    List.replicate d (if j % 2 = 0 then Polarity.mark else .space) ++ waveformFrom (j + 1) ds

/-- The half-unit waveform of a sequence (R75: index 0 is a mark). -/
def waveform (seq : List Nat) : List Polarity := waveformFrom 0 seq

/-- The halves of the low `n` bits of a code, most significant first (R90, R92). -/
def payloadHalves (code : Code) : Nat → List Polarity
  | 0 => []
  | k + 1 =>
    (if code.getLsbD k then [Polarity.space, .mark] else [.mark, .space]) ++ payloadHalves code k

/-- The frame of R76 "before coalescing". -/
def frameHalves (code : Code) : List Polarity :=
  let repetition :=
    List.replicate 3 Polarity.mark ++ List.replicate 3 .space ++ payloadHalves code 34
  repetition ++ repetition ++ repetition ++ List.replicate 4 .mark

/-- The entries the low `n` bits add after a bit `prev`: one when a bit differs from the one before
it, two when it equals it (R94.3). -/
def entriesAdded (code : Code) : Nat → Bool → Nat
  | 0, _ => 0
  | k + 1, prev =>
    (if code.getLsbD k = prev then 2 else 1) + entriesAdded code k (code.getLsbD k)

/-- The "previous bit" of the first bit: "1 when the level is MARK and 0 when the level is SPACE"
(R94.4, R89). -/
def levelBit (len : Nat) : Bool := len % 2 == 1

/-- `t(code)`: "the number of k in 0..32 with code[k] ≠ code[k+1]" (R99). -/
def transitions (code : Code) : Nat :=
  ((List.range 33).filter fun k => code.getLsbD k != code.getLsbD (k + 1)).length

/-- `L = 70 − t(code) − code[33]` (R99). -/
def repetitionLength (code : Code) : Nat := 70 - transitions code - bitOf code 33

/-! ## The decoder as a relation (R103, R104): no bound on the iterations -/

/-- A unit sequence as a function of the index. -/
abbrev Units := Nat → Nat

/-- `U[j] <- v`. -/
def setUnit (u : Units) (j v : Nat) : Units := fun k => if k = j then v else u k

/-- `rd(j)` (R103). -/
def rd (u : Units) (stop j : Nat) : Nat := if j < stop then u j else 0

/-- `acc <- (2*acc + bit) mod 2^64` with `bit <- 0 if ph = MARK else 1` (R104). -/
def pushDecoded (acc : Code) (ph : Polarity) : Code :=
  BitVec.ofNat 64 ((2 * acc.toNat + (if ph = .mark then 0 else 1)) % 2 ^ 64)

/-- The loop of R104, one constructor per branch: from sequence `u`, position `i`, phase `ph` and
accumulator `acc`, after `k` iterations it returns `res` and leaves `u'`. -/
inductive PayloadDecode (stop : Nat) :
    Units → Nat → Polarity → Code → Nat → Code → Units → Prop where
  | fullSymbol {u i ph acc k res u'} :
      rd u stop i = 1 → rd u stop (i + 1) = 1 →
      PayloadDecode stop u (i + 2) ph (pushDecoded acc ph) k res u' →
      PayloadDecode stop u i ph acc (k + 1) res u'
  | borrow {u i ph acc k res u'} :
      rd u stop i = 1 → 1 < rd u stop (i + 1) →
      PayloadDecode stop (setUnit u (i + 1) (rd u stop (i + 1) - 1)) (i + 1) ph.flip
        (pushDecoded acc ph) k res u' →
      PayloadDecode stop u i ph acc (k + 1) res u'
  | stopEntry {u i ph acc} :
      rd u stop i = 3 ∨ rd u stop i = 4 → PayloadDecode stop u i ph acc 1 acc u
  | failure {u i ph acc} :
      ¬ (rd u stop i = 1 ∧ 0 < rd u stop (i + 1)) → rd u stop i ≠ 3 → rd u stop i ≠ 4 →
      PayloadDecode stop u i ph acc 1 0 u

/-- `pol(j)` (R10). -/
def polarityOf (j : Nat) : Polarity := if j % 2 = 0 then .mark else .space

/-- The loop of R110, one constructor per branch: from scan index `k`, the candidates `reps` and
the sequence `u` it ends with `reps'` and `u'`. -/
inductive FrameScan (n : Nat) : Nat → List Code → Units → List Code → Units → Prop where
  | finished {k reps u} :
      ¬ (reps.length < 3 ∧ k + 1 < n) → FrameScan n k reps u reps u
  | ordinary {k reps u m c u₁ reps' u'} :
      reps.length < 3 → k + 1 < n → k % 2 = 0 → u k = 3 → u (k + 1) = 3 →
      PayloadDecode n u (k + 2) (polarityOf (k + 2)) 0 m c u₁ →
      FrameScan n (k + 2) (reps ++ [c]) u₁ reps' u' → FrameScan n k reps u reps' u'
  | merged {k reps u m c u₁ reps' u'} :
      reps.length < 3 → k + 1 < n → k % 2 = 0 → u k = 3 → u (k + 1) = 4 →
      PayloadDecode n (setUnit u (k + 1) 1) (k + 1) (polarityOf (k + 1)) 0 m c u₁ →
      FrameScan n (k + 2) (reps ++ [c]) u₁ reps' u' → FrameScan n k reps u reps' u'
  | skip {k reps u reps' u'} :
      reps.length < 3 → k + 1 < n →
      ¬ (k % 2 = 0 ∧ u k = 3 ∧ (u (k + 1) = 3 ∨ u (k + 1) = 4)) →
      FrameScan n (k + 1) reps u reps' u' → FrameScan n k reps u reps' u'

/-- `MAJ(a, b, c)` (R109). -/
def majority (a b c : Code) : Code :=
  if a = b ∨ a = c then a else if b = c then b else 0

/-! ## When a command raises an error (R121) -/

/-- "TICK_US = 0, or UNIT_US = 0, or RXLEN > RX_CAP". -/
def BadCapture (s : State) : Prop :=
  s.tickUs.toNat = 0 ∨ s.unitUs.toNat = 0 ∨ s.params.rxCap < s.rxLen.toNat

/-- "RXLEN > RX_CAP, or END > RXLEN". -/
def BadWindow (s : State) : Prop :=
  s.params.rxCap < s.rxLen.toNat ∨ s.rxLen.toNat < s.endIdx.toNat

/-- "BITS > 64, or TXLEN > TX_CAP". -/
def BadEncode (s : State) : Prop :=
  64 < s.bits.toNat ∨ s.params.txCap < s.txLen.toNat

/-- MENC's first bit, `CODE_IN[BITS-1]`. -/
def firstBit (s : State) : Bool := s.codeIn.getLsbD (s.bits.toNat - 1)

/-- MENC's first half has the polarity of `TX[TXLEN-1]` and extends it (R91, R95). -/
def ExtendsLast (s : State) : Prop :=
  1 ≤ s.txLen.toNat ∧ 1 ≤ s.bits.toNat ∧ firstBit s ≠ levelBit s.txLen.toNat

/-- The length of MENC's result. -/
def mencLength (s : State) : Nat :=
  s.txLen.toNat + entriesAdded s.codeIn s.bits.toNat (levelBit s.txLen.toNat)

/-- "TXLEN = 0, BITS ≥ 1 and CODE_IN[BITS-1] = 1". -/
def EmptySpace (s : State) : Prop :=
  s.txLen.toNat = 0 ∧ 1 ≤ s.bits.toNat ∧ firstBit s = true

/-- "the result has more than TX_CAP entries, or TX[TXLEN-1] = 0xFFFF and is extended". -/
def Overflows (s : State) : Prop :=
  s.params.txCap < mencLength s
  ∨ (ExtendsLast s ∧ (s.txAt (s.txLen.toNat - 1)).toNat = 0xFFFF)

/-- The table of R121 with the priorities of R122: command `i` in state `s` ends with code `e`. -/
def EndsWith (i : Instr) (s : State) (e : ErrCode) : Prop :=
  match i with
  | .nop | .fenc | .fencN | .fdec | .frenc | .frencN | .vote => e = .ok
  | .norm | .frdec | .rx => (BadCapture s ∧ e = .badArg) ∨ (¬ BadCapture s ∧ e = .ok)
  | .mdec => (BadWindow s ∧ e = .badArg) ∨ (¬ BadWindow s ∧ e = .ok)
  | .menc =>
    (BadEncode s ∧ e = .badArg)
    ∨ (¬ BadEncode s ∧ EmptySpace s ∧ e = .emptySpace)
    ∨ (¬ BadEncode s ∧ ¬ EmptySpace s ∧ Overflows s ∧ e = .txOverflow)
    ∨ (¬ BadEncode s ∧ ¬ EmptySpace s ∧ ¬ Overflows s ∧ e = .ok)

/-! ## Receiving what another block sent -/

/-- Every entry of `t`'s sequence is in `r`'s capture, its duration off by less than the window of
R102: from half a unit too short to just under half a unit too long. -/
def CapturedWithinJitter (t r : State) : Prop :=
  ∀ j, j < t.txLen.toNat →
    ((t.txAt j).toNat : Int) * r.unitUs.toNat - (r.unitUs.toNat / 2 : Nat)
        ≤ ((r.rxAt j).toNat : Int) * r.tickUs.toNat
    ∧ ((r.rxAt j).toNat : Int) * r.tickUs.toNat
        < (((t.txAt j).toNat : Int) + 1) * r.unitUs.toNat - (r.unitUs.toNat / 2 : Nat)

/-- The premises of a reception: `t` is what `FRENC` or `FRENC.N` left on `s`, and `r` holds a
capture of it that FRDEC and RX do not refuse. -/
def Received (n : Bool) (s t r : State) : Prop :=
  exec (if n then .frencN else .frenc) s = .next t
  ∧ r.rxLen = t.txLen ∧ ¬ BadCapture r ∧ CapturedWithinJitter t r

/-- When the driver starts on entry `j`, in microseconds after the hand-off: the durations of the
entries before it (R128). -/
def startMicros (s : State) (j : Nat) : Nat :=
  ((List.range j).map fun k => (s.txAt k).toNat * s.unitUs.toNat).sum

/-! ## The address map (R49) -/

/-- The bits a host write to a register stores: `none` where a host write is ignored. -/
def storedBits : Reg → Option Word
  | .cmd | .status | .resultLo | .resultHi | .repCount | .reserved => none
  | .bits => some 0x7F
  | .start | .endIdx | .txLen | .rxLen | .tickUs | .unitUs | .tx _ => some 0xFFFF
  | .cfg => some 0x3F3F07FF
  | .codeInLo | .codeInHi | .rep0Lo | .rep0Hi | .rep1Lo | .rep1Hi | .rep2Lo | .rep2Hi | .rx _ =>
    some 0xFFFFFFFF

/-- The byte offset R49 gives a register, written out from its table: `none` for a buffer entry at or
beyond its capacity (R43, R44) and for `reserved`, which is no register. -/
def mapOffset (p : Config.Params) : Reg → Option Nat
  | .cmd => some 0x000 | .status => some 0x004
  | .codeInLo => some 0x008 | .codeInHi => some 0x00C
  | .resultLo => some 0x010 | .resultHi => some 0x014
  | .bits => some 0x018 | .start => some 0x01C | .endIdx => some 0x020
  | .txLen => some 0x024 | .rxLen => some 0x028
  | .tickUs => some 0x02C | .unitUs => some 0x030
  | .cfg => some 0x034 | .repCount => some 0x038
  | .rep0Lo => some 0x040 | .rep0Hi => some 0x044
  | .rep1Lo => some 0x048 | .rep1Hi => some 0x04C
  | .rep2Lo => some 0x050 | .rep2Hi => some 0x054
  | .tx j => if j < p.txCap then some (0x1000 + 4 * j) else none
  | .rx j => if j < p.rxCap then some (0x2000 + 4 * j) else none
  | .reserved => none

/-- The STATUS word as a number (R17, R121). -/
def statusValue (s : State) : Nat :=
  (match s.err with
    | .ok => 0 | .illegalOp => 1 | .badArg => 2 | .emptySpace => 3 | .txOverflow => 4)
  + 8 * s.nocons.toNat

/-- The CFG word as a number (R29). -/
def cfgValue (c : Cfg) : Nat :=
  c.powerSetting.toNat + 2 * c.powerReal.toNat + 4 * c.mode.toNat
    + 32 * c.fan.toNat + 128 * c.swing.toNat + 256 * c.swingH.toNat
    + 512 * c.sleep.toNat + 1024 * c.ifeel.toNat
    + 2 ^ 16 * c.temperature.toNat + 2 ^ 24 * c.ifeelTemperature.toNat

/-- Bits 31:0 of a 64-bit register, as a number (R53). -/
def lowerWord (c : Code) : Nat := c.toNat % 2 ^ 32

/-- Bits 63:32 of a 64-bit register, as a number (R53). -/
def upperWord (c : Code) : Nat := c.toNat / 2 ^ 32

/-- The word of each register as a number, from the fields the commands use (R16 to R44, R50). -/
def wordValue (s : State) : Reg → Nat
  | .cmd => 0 | .reserved => 0
  | .status => statusValue s
  | .codeInLo => lowerWord s.codeIn | .codeInHi => upperWord s.codeIn
  | .resultLo => lowerWord s.result | .resultHi => upperWord s.result
  | .bits => s.bits.toNat | .start => s.start.toNat | .endIdx => s.endIdx.toNat
  | .txLen => s.txLen.toNat | .rxLen => s.rxLen.toNat
  | .tickUs => s.tickUs.toNat | .unitUs => s.unitUs.toNat
  | .cfg => cfgValue s.cfg | .repCount => s.repCount.toNat
  | .rep0Lo => lowerWord s.rep0 | .rep0Hi => upperWord s.rep0
  | .rep1Lo => lowerWord s.rep1 | .rep1Hi => upperWord s.rep1
  | .rep2Lo => lowerWord s.rep2 | .rep2Hi => upperWord s.rep2
  | .tx j => (s.txAt j).toNat | .rx j => (s.rxAt j).toNat

/-- A 64-bit register whose bits 31:0 were written (R53). -/
def withLower (c : Code) (v : Word) : Code := BitVec.ofNat 64 (upperWord c * 2 ^ 32 + v.toNat)

/-- A 64-bit register whose bits 63:32 were written (R53). -/
def withUpper (c : Code) (v : Word) : Code := BitVec.ofNat 64 (v.toNat * 2 ^ 32 + lowerWord c)

/-- The CFG record a written word gives: each field at its bits, the reserved bits dropped (R29,
R40). -/
def cfgStored (v : Word) : Cfg :=
  let field := fun hi lo => v.toNat / 2 ^ lo % 2 ^ (hi + 1 - lo)
  { powerSetting := field 0 0 == 1
    powerReal := field 1 1 == 1
    mode := BitVec.ofNat 3 (field 4 2)
    fan := BitVec.ofNat 2 (field 6 5)
    swing := field 7 7 == 1
    swingH := field 8 8 == 1
    sleep := field 9 9 == 1
    ifeel := field 10 10 == 1
    temperature := BitVec.ofNat 6 (field 21 16)
    ifeelTemperature := BitVec.ofNat 6 (field 29 24) }

/-- `t` is what a host write of `v` to a register leaves: the register's field and nothing else. -/
def StoresTo (s : State) (v : Word) (t : State) : Reg → Prop
  | .cmd | .status | .resultLo | .resultHi | .repCount | .reserved => t = s
  | .codeInLo => t = { s with codeIn := withLower s.codeIn v }
  | .codeInHi => t = { s with codeIn := withUpper s.codeIn v }
  | .bits => t = { s with bits := BitVec.ofNat 7 v.toNat }
  | .start => t = { s with start := BitVec.ofNat 16 v.toNat }
  | .endIdx => t = { s with endIdx := BitVec.ofNat 16 v.toNat }
  | .txLen => t = { s with txLen := BitVec.ofNat 16 v.toNat }
  | .rxLen => t = { s with rxLen := BitVec.ofNat 16 v.toNat }
  | .tickUs => t = { s with tickUs := BitVec.ofNat 16 v.toNat }
  | .unitUs => t = { s with unitUs := BitVec.ofNat 16 v.toNat }
  | .cfg => t = { s with cfg := cfgStored v }
  | .rep0Lo => t = { s with rep0 := withLower s.rep0 v }
  | .rep0Hi => t = { s with rep0 := withUpper s.rep0 v }
  | .rep1Lo => t = { s with rep1 := withLower s.rep1 v }
  | .rep1Hi => t = { s with rep1 := withUpper s.rep1 v }
  | .rep2Lo => t = { s with rep2 := withLower s.rep2 v }
  | .rep2Hi => t = { s with rep2 := withUpper s.rep2 v }
  | .tx j =>
    t = { s with mem := { s.mem with tx := t.mem.tx } }
    ∧ (t.txAt j).toNat = v.toNat % 2 ^ 16 ∧ ∀ k, k ≠ j → t.txAt k = s.txAt k
  | .rx j =>
    t = { s with mem := { s.mem with rx := t.mem.rx } }
    ∧ t.rxAt j = v ∧ ∀ k, k ≠ j → t.rxAt k = s.rxAt k

/-- A reserved byte offset of the map (R49). -/
def ReservedOffset (p : Config.Params) (off : Nat) : Prop :=
  off = 0x03C ∨ (0x058 ≤ off ∧ off < 0x1000)
  ∨ (0x1000 + 4 * p.txCap ≤ off ∧ off < 0x2000)
  ∨ (0x2000 + 4 * p.rxCap ≤ off ∧ off < 0x10000)

/-- The form of the memory, and legal parameters: what every step keeps. -/
def MemoryForm (s : State) : Prop := s.params.Valid ∧ s.mem.wf s.params = true

end Sys2Proof.Spec

open Sys2Proof Sys2Proof.Machine Sys2Proof.Spec Sys2Proof.Safety

/-! ## Command words and steps -/

/-- R66: the twelve words of the opcode map decode to their commands, bit for bit. -/
def Obligations.TableWordsDecode : Prop :=
  decode 0x00000000#32 = .ok .nop ∧ decode 0x00000001#32 = .ok .fenc
  ∧ decode 0x00000011#32 = .ok .fencN ∧ decode 0x00000002#32 = .ok .fdec
  ∧ decode 0x00000003#32 = .ok .menc ∧ decode 0x00000004#32 = .ok .frenc
  ∧ decode 0x00000014#32 = .ok .frencN ∧ decode 0x00000005#32 = .ok .norm
  ∧ decode 0x00000006#32 = .ok .mdec ∧ decode 0x00000007#32 = .ok .frdec
  ∧ decode 0x00000008#32 = .ok .vote ∧ decode 0x00000009#32 = .ok .rx

/-- R66, R68: a word decodes to a command exactly when it is that command's word: no bit of a word
is dropped, and no other word is legal. -/
def Obligations.DecodeExactlyTheEncodedWords : Prop :=
  ∀ (w : Word) (i : Instr), decode w = .ok i ↔ w = encode i

/-- R68: the decoder rejects exactly the words the rule calls illegal, and writing one to CMD
raises ILLEGAL_OP "and has no other effect"; a legal word runs its command. -/
def Obligations.IllegalWordsRaiseIllegalOp : Prop :=
  ∀ (s : State) (w : Word),
    ((∃ e, decode w = .error e) ↔ IllegalCommandWord w)
    ∧ (IllegalCommandWord w → runCommandWord s w = .next { s with err := .illegalOp })
    ∧ (¬ IllegalCommandWord w → ∃ i, w = encode i ∧ runCommandWord s w = exec i s)

/-- R16, R67: a step whose next input writes a word to CMD runs that word's command on the state
without that input; an illegal word sets ERR and nothing else. -/
def Obligations.CommandWriteRunsTheCommand : Prop :=
  ∀ (s : State) (w : Word) (rest : List Input),
    s.params.eccBase % 4 = 0 → s.inputs = .write s.params.eccBase 4 w :: rest →
    (∀ i, decode w = .ok i → step s = exec i { s with inputs := rest })
    ∧ (∀ e, decode w = .error e → step s = .next { s with inputs := rest, err := .illegalOp })

/-- R134, R143 (log 6): with no input waiting a step changes nothing. The idle step is the model's
choice; the rules say that the state persists. -/
def Obligations.NoInputNoChange : Prop :=
  ∀ s : State, s.inputs = [] → step s = .next s

/-- Every command ends (R58, R123): from every state `exec` answers a next state, never a fault and
never a refusal. -/
def Obligations.EveryCommandEnds : Prop :=
  ∀ (i : Instr) (s : State), ∃ t, exec i s = .next t

/-! ## Host accesses -/

/-- R52: an access that is not a 32-bit access at a word-aligned address is refused; an admitted
access in the register space is not. -/
def Obligations.OnlyAlignedWordAccesses : Prop :=
  ∀ (s : State) (addr size : Nat) (v : Word) (rest : List Input),
    (¬ (size = 4 ∧ addr % 4 = 0) →
      (s.inputs = .read addr size :: rest → step s = .refused .accessNotAdmitted)
      ∧ (s.inputs = .write addr size v :: rest → step s = .refused .accessNotAdmitted))
    ∧ (size = 4 → addr % 4 = 0 → s.params.eccBase ≤ addr → addr < s.params.eccBase + 0x10000 →
      (s.inputs = .read addr size :: rest → ∃ t, step s = .next t)
      ∧ (s.inputs = .write addr size v :: rest → ∃ t, step s = .next t))

/-- The model's choice (log 12): an admitted access outside the 64 KiB at ECC_BASE faults, because
the host register space of R48 has no such address. -/
def Obligations.AccessOutsideTheSpaceFaults : Prop :=
  ∀ (s : State) (addr : Nat) (v : Word) (rest : List Input),
    addr % 4 = 0 → (addr < s.params.eccBase ∨ s.params.eccBase + 0x10000 ≤ addr) →
    (s.inputs = .read addr 4 :: rest → step s = .fault .outsideRegisterSpace)
    ∧ (s.inputs = .write addr 4 v :: rest → step s = .fault .outsideRegisterSpace)

/-- R50: "A read of a reserved word returns 0. A write to a reserved word is ignored." -/
def Obligations.ReservedWordsDoNothing : Prop :=
  ∀ (s : State) (off : Nat) (v : Word) (rest : List Input),
    s.params.Valid → off % 4 = 0 → ReservedOffset s.params off →
    (s.inputs = .read (s.params.eccBase + off) 4 :: rest →
      step s = .next { s with inputs := rest, readData := some 0 })
    ∧ (s.inputs = .write (s.params.eccBase + off) 4 v :: rest →
      step s = .next { s with inputs := rest })

/-- R49, R78: the moves `wr REG` and `rd REG` are accesses at the offset the map gives REG, and they
reach REG; a read gives the host the register's word and changes nothing in ECC (R56). -/
def Obligations.MovesReachTheirRegister : Prop :=
  ∀ (s : State) (r : Reg) (off : Nat) (v : Word) (rest : List Input),
    s.params.Valid → mapOffset s.params r = some off →
    readMove s.params r = .read (s.params.eccBase + off) 4
    ∧ writeMove s.params r v = .write (s.params.eccBase + off) 4 v
    ∧ (s.inputs = .read (s.params.eccBase + off) 4 :: rest →
      step s = .next { s with inputs := rest, readData := some (readReg s r) })
    ∧ (r ≠ .cmd → s.inputs = .write (s.params.eccBase + off) 4 v :: rest →
      step s = .next (writeReg { s with inputs := rest } r v))

/-- R49, R53, R14: a written register reads back the stored bits and 0 elsewhere, an ignored write
changes nothing, and no write shows in any other register. -/
def Obligations.WrittenRegistersReadBack : Prop :=
  ∀ (s : State) (r : Reg) (v : Word),
    (∀ m, storedBits r = some m → readReg (writeReg s r v) r = v &&& m)
    ∧ (storedBits r = none → writeReg s r v = s)
    ∧ ∀ r', r' ≠ r → readReg (writeReg s r v) r' = readReg s r'

/-- R16 to R44, R50, R53: the word of every register, as a number, from the state fields that the
commands read and write. -/
def Obligations.RegisterWordsHaveTheirFields : Prop :=
  ∀ (s : State) (r : Reg), (readReg s r).toNat = wordValue s r

/-- R49, R20 to R44, R53: a host write to any register stores its defined bits in that register's
field, a write of one half of a 64-bit register keeps the other half, a read-only register keeps its
value, and nothing else changes. -/
def Obligations.RegisterWritesStoreTheirFields : Prop :=
  ∀ (s : State) (r : Reg) (v : Word), StoresTo s v (writeReg s r v) r

/-- R130, R128: a transmit hand-off gives the driver each entry of TX[0..TXLEN-1] at its polarity
for `TX[j]*UNIT_US` microseconds, with the UNIT_US of the hand-off (log 9); while entry j is emitted
the line is at its polarity, after the last entry it is idle (SPACE); and ECC does not change. -/
def Obligations.TransmitHandOffGivesThePulses : Prop :=
  ∀ (s : State) (rest : List Input),
    s.txLen.toNat ≤ s.params.txCap → s.inputs = .transmitHandOff :: rest →
    ∃ t, step s = .next t
      ∧ t = { s with inputs := rest, handedOff := t.handedOff }
      ∧ t.handedOff.length = s.txLen.toNat
      ∧ (∀ j, j < s.txLen.toNat →
          t.handedOff[j]? = some ⟨polarityOf j, (s.txAt j).toNat * s.unitUs.toNat⟩)
      ∧ (∀ j time, j < s.txLen.toNat →
          startMicros s j ≤ time → time < startMicros s (j + 1) →
          lineLevel t.handedOff time = polarityOf j)
      ∧ ∀ time, startMicros s s.txLen.toNat ≤ time → lineLevel t.handedOff time = .space

/-- R130: a capture hand-off does "nothing until a command". -/
def Obligations.CaptureHandOffDoesNothing : Prop :=
  ∀ (s : State) (counts : List Word) (tickUs : BitVec 16) (rest : List Input),
    s.inputs = .captureHandOff counts tickUs :: rest → step s = .next { s with inputs := rest }

/-! ## Reset and the invariant -/

/-- R135: asserting reset puts every register at its value, whatever the state before; the state
after reset has the same values. -/
def Obligations.ResetSetsEveryRegister : Prop :=
  ∀ t : State,
    (t = State.reset ∨ ∃ (s : State) (rest : List Input),
      s.inputs = .reset :: rest ∧ step s = .next t) →
    t.err = .ok ∧ t.nocons = false ∧ t.codeIn = 0 ∧ t.result = 0 ∧ t.bits = 34 ∧ t.start = 0
    ∧ t.endIdx = 0 ∧ t.txLen = 0 ∧ t.rxLen = 0 ∧ t.tickUs = 0 ∧ t.unitUs = 1000
    ∧ cfgWord t.cfg = 0 ∧ t.repCount = 0 ∧ t.rep0 = 0 ∧ t.rep1 = 0 ∧ t.rep2 = 0

/-- R135: a reset input is always taken. -/
def Obligations.ResetIsAlwaysTaken : Prop :=
  ∀ (s : State) (rest : List Input), s.inputs = .reset :: rest →
    ∃ t, step s = .next t ∧ t.inputs = rest ∧ t.params = s.params ∧ t.mem.tx = [] ∧ t.mem.rx = []

/-- The memory's form holds at reset. -/
def Obligations.MemoryFormAtReset : Prop := MemoryForm State.reset

/-- Every step keeps the memory's form (R43, R44: no entry at or beyond a buffer's capacity) and
the parameters (R6). -/
def Obligations.StepKeepsMemoryForm : Prop :=
  ∀ s t : State, MemoryForm s → step s = .next t → MemoryForm t ∧ t.params = s.params

/-! ## NOP and the field codec -/

/-- R116: NOP leaves everything but ERR, and the words 0x10 and 0xE0 are not NOP. -/
def Obligations.NopOnlyClearsErr : Prop :=
  ∀ s : State,
    exec .nop s = .next { s with err := .ok }
    ∧ runCommandWord s 0x00000000 = .next { s with err := .ok }
    ∧ runCommandWord s 0x00000010 = .next { s with err := .illegalOp }
    ∧ runCommandWord s 0x000000E0 = .next { s with err := .illegalOp }

/-- R81, R82: FENC and FENC.N complete from every state with RESULT the sum of the fields at their
places, and change nothing else but ERR. -/
def Obligations.FencPacksTheConfiguration : Prop :=
  ∀ s : State,
    exec .fenc s
      = .next { s with result := BitVec.ofNat 64 (packedValue s.cfg false), err := .ok }
    ∧ exec .fencN s
      = .next { s with result := BitVec.ofNat 64 (packedValue s.cfg true), err := .ok }

/-- R83, R84: FDEC completes from every state with CFG unpacked from CODE_IN, and changes nothing
else but ERR. -/
def Obligations.FdecUnpacksTheCode : Prop :=
  ∀ s : State, exec .fdec s = .next { s with cfg := unpackedCfg s.cfg s.codeIn, err := .ok }

/-- R87: the round trip of the field codec, through the commands. -/
def Obligations.FieldsSurviveTheRoundTrip : Prop :=
  ∀ (s : State) (cfg' : Cfg) (n : Bool), InRange s.cfg →
    ∃ t u, exec (if n then .fencN else .fenc) s = .next t
      ∧ exec .fdec { t with codeIn := t.result, cfg := cfg' } = .next u
      ∧ u.cfg.mode = s.cfg.mode ∧ u.cfg.fan = s.cfg.fan ∧ u.cfg.swing = s.cfg.swing
      ∧ u.cfg.sleep = s.cfg.sleep ∧ u.cfg.ifeel = s.cfg.ifeel
      ∧ (n = false → u.cfg.temperature = s.cfg.temperature)
      ∧ (n = true → u.cfg.ifeelTemperature = s.cfg.ifeelTemperature)

/-- R88: a packed code toggles exactly on a mismatch, and decoding a code inverts power_real or
leaves it; no power level is copied. -/
def Obligations.PowerIsATogglePair : Prop :=
  ∀ (s : State) (n : Bool),
    (∃ t, exec (if n then .fencN else .fenc) s = .next t
      ∧ (bitOf t.result 33 = 1 ↔ s.cfg.powerSetting ≠ s.cfg.powerReal))
    ∧ ∃ u, exec .fdec s = .next u
      ∧ (bitOf s.codeIn 33 = 1 → u.cfg.powerReal = !s.cfg.powerReal)
      ∧ (bitOf s.codeIn 33 = 0 → u.cfg.powerReal = s.cfg.powerReal)
      ∧ u.cfg.powerSetting = s.cfg.powerSetting

/-- R86: "two FDECs of one toggle code restore it". -/
def Obligations.TwoTogglesRestorePower : Prop :=
  ∀ s : State, ∃ t u, exec .fdec s = .next t ∧ exec .fdec t = .next u
    ∧ u.cfg = { t.cfg with powerReal := s.cfg.powerReal }

/-- R72: every code FENC or FENC.N produces from in-range inputs is well formed, and every
well-formed code is at least 0x40000002, so 0 never is. -/
def Obligations.PackedCodesAreWellFormed : Prop :=
  (∀ (s : State) (n : Bool), InRange s.cfg →
    ∃ t, exec (if n then .fencN else .fenc) s = .next t ∧ WellFormedCode t.result)
  ∧ (∀ c : Code, WellFormedCode c → 0x40000002 ≤ c.toNat)
  ∧ ¬ WellFormedCode 0

/-- R112, R85, R100: every code FENC, FENC.N, FRENC or FRENC.N produces, whatever CFG holds, is at
least 2 and below 2^34, so the failure sentinel 0 is never one. -/
def Obligations.NoEncoderGivesTheSentinel : Prop :=
  ∀ (s : State) (i : Instr), i = .fenc ∨ i = .fencN ∨ i = .frenc ∨ i = .frencN →
    ∃ t, exec i s = .next t ∧ 2 ≤ t.result.toNat ∧ t.result.toNat < 2 ^ 34

/-! ## The Manchester encoder -/

/-- R93: the cases of one bit by the level before it, and the level after it. -/
def Obligations.OneBitByTheLevelBefore : Prop :=
  (∀ (seq : List Nat) (s : Nat), seq.length % 2 = 1 →
    emitBit (seq ++ [s]) true = .ok (seq ++ [s + 1, 1])
    ∧ emitBit (seq ++ [s]) false = .ok (seq ++ [s, 1, 1]))
  ∧ (∀ (seq : List Nat) (s : Nat), seq.length % 2 = 0 →
    emitBit (seq ++ [s]) false = .ok (seq ++ [s + 1, 1])
    ∧ emitBit (seq ++ [s]) true = .ok (seq ++ [s, 1, 1]))
  ∧ emitBit [] false = .ok [1, 1]
  ∧ emitBit [] true = .error .emptySpace
  ∧ ∀ (seq out : List Nat) (b : Bool), emitBit seq b = .ok out →
      0 < out.length ∧ pol (out.length - 1) = if b then .mark else .space

/-- R90 to R92: encoding never fails on a non-empty sequence, and the coalesced sequence is, half
unit by half unit, the old sequence followed by the halves of the bits. -/
def Obligations.EncodingKeepsTheWaveform : Prop :=
  ∀ (code : Code) (n : Nat) (seq : List Nat),
    (seq ≠ [] → ∃ out, encodeBits code n seq = .ok out)
    ∧ ∀ out, encodeBits code n seq = .ok out →
        waveform out = waveform seq ++ payloadHalves code n

/-- R94.1 to R94.6: units and entries added, which entry can grow and by how much, and the size of
the new entries. -/
def Obligations.EncodingAddsShortEntries : Prop :=
  ∀ (code : Code) (n : Nat) (seq out : List Nat), encodeBits code n seq = .ok out →
    out.sum = seq.sum + 2 * n
    ∧ out.length = seq.length + entriesAdded code n (levelBit seq.length)
    ∧ (∀ j, j + 1 < seq.length → out[j]? = seq[j]?)
    ∧ (∀ j, j + 1 = seq.length → ∃ d e, seq[j]? = some d ∧ out[j]? = some e ∧ d ≤ e ∧ e ≤ d + 1)
    ∧ ∀ j d, seq.length ≤ j → out[j]? = some d → d = 1 ∨ d = 2

/-- R94.8: "No shorter alternating list represents the same half-unit waveform", where every entry
that was there lasts at least one unit. -/
def Obligations.EncodingIsMinimal : Prop :=
  ∀ (code : Code) (n : Nat) (seq out other : List Nat),
    (∀ d ∈ seq, 0 < d) → encodeBits code n seq = .ok out → waveform other = waveform out →
    out.length ≤ other.length

/-- R95: where MENC raises no error it completes: TXBUF holds the old sequence followed by the
halves of the low BITS bits, the entries before the last and those beyond the new TXLEN stay, the
last one grows by one exactly when it is extended, and nothing else changes. -/
def Obligations.MencAppendsTheBits : Prop :=
  ∀ s : State, s.params.Valid → ¬ BadEncode s → ¬ EmptySpace s → ¬ Overflows s →
    ∃ t, exec .menc s = .next t
      ∧ t = { s with mem := { s.mem with tx := t.mem.tx }, txLen := t.txLen, err := .ok }
      ∧ t.txLen.toNat = mencLength s
      ∧ waveform (t.txSeq t.txLen.toNat)
          = waveform (s.txSeq s.txLen.toNat) ++ payloadHalves s.codeIn s.bits.toNat
      ∧ (∀ j, j + 1 < s.txLen.toNat ∨ t.txLen.toNat ≤ j → t.txAt j = s.txAt j)
      ∧ (1 ≤ s.txLen.toNat →
          (ExtendsLast s →
            (t.txAt (s.txLen.toNat - 1)).toNat = (s.txAt (s.txLen.toNat - 1)).toNat + 1)
          ∧ (¬ ExtendsLast s → t.txAt (s.txLen.toNat - 1) = s.txAt (s.txLen.toNat - 1)))

/-- R95: "BITS = 0 completes with no change" where the arguments are legal. -/
def Obligations.MencOfNoBitsChangesNothing : Prop :=
  ∀ s : State, s.bits = 0 → s.txLen.toNat ≤ s.params.txCap →
    ∃ t, exec .menc s = .next t
      ∧ t = { s with mem := { s.mem with tx := t.mem.tx }, err := .ok }
      ∧ ∀ j, t.txAt j = s.txAt j

/-! ## The frame encoder -/

/-- R96, R97, R98: for a code with bit 0 clear the frame has `3·L + 1` entries, three entry-for-entry
equal repetitions and the sentinel; the preamble reads [3, 4] exactly when bit 33 is 1; payload
entries are 1 or 2. -/
def Obligations.FrameHasThreeEqualRepetitions : Prop :=
  ∀ c : Code, c.getLsbD 0 = false →
    ∃ f, frame c = .ok f
      ∧ f.length = 3 * repetitionLength c + 1
      ∧ (∀ r j, r < 3 → j < repetitionLength c → f[r * repetitionLength c + j]? = f[j]?)
      ∧ f[0]? = some 3
      ∧ (c.getLsbD 33 = true → f[1]? = some 4)
      ∧ (c.getLsbD 33 = false → f[1]? = some 3 ∧ f[2]? = some 1)
      ∧ (∀ j d, 2 ≤ j → j < repetitionLength c → f[j]? = some d → d = 1 ∨ d = 2)
      ∧ f[3 * repetitionLength c]? = some 4

/-- R96, R99: FRAME never fails, its waveform is the frame of R76 before coalescing, and it lasts 226
units, "the same for every code". -/
def Obligations.FrameLasts226Units : Prop :=
  ∀ c : Code, ∃ f, frame c = .ok f ∧ waveform f = frameHalves c ∧ f.sum = 226

/-- R99: among codes with bit 0 clear the length runs from 109 to 211, both of them reached. -/
def Obligations.FrameLengthBounds : Prop :=
  (∀ c : Code, c.getLsbD 0 = false →
    ∃ f, frame c = .ok f ∧ 109 ≤ f.length ∧ f.length ≤ 211)
  ∧ (∃ f, frame 0x2AAAAAAAA = .ok f ∧ f.length = 109)
  ∧ (∃ f, frame 0 = .ok f ∧ f.length = 211)

/-- R100: FRENC and FRENC.N complete from every state: RESULT is the packed code, TXBUF its frame,
TXLEN the frame's length; entries at or beyond TXLEN stay, and nothing else changes. -/
def Obligations.FrencWritesTheFrame : Prop :=
  ∀ (s : State) (n : Bool),
    ∃ t f, exec (if n then .frencN else .frenc) s = .next t
      ∧ t = { s with mem := { s.mem with tx := t.mem.tx }, txLen := t.txLen,
                     result := BitVec.ofNat 64 (packedValue s.cfg n), err := .ok }
      ∧ frame (BitVec.ofNat 64 (packedValue s.cfg n)) = .ok f
      ∧ t.txLen.toNat = f.length ∧ t.txSeq f.length = f
      ∧ t.txLen.toNat = 3 * repetitionLength t.result + 1
      ∧ ∀ j, f.length ≤ j → t.txAt j = s.txAt j

/-- R99, R128: what FRENC leaves, handed to the transmit driver, lasts 226 units of UNIT_US. -/
def Obligations.SentFrameLasts226Units : Prop :=
  ∀ (s t : State) (n : Bool), s.params.Valid →
    exec (if n then .frencN else .frenc) s = .next t →
    ((transmitPulses t).map Pulse.micros).sum = 226 * s.unitUs.toNat

/-! ## The normaliser and the Manchester decoder -/

/-- R102: NORM completes on legal arguments; each entry of the capture becomes `n` exactly when its
duration lies in the window of `n` units; entries at or beyond RXLEN and everything else stay. -/
def Obligations.NormRoundsToTheNearestUnit : Prop :=
  ∀ s : State, ¬ BadCapture s →
    ∃ t, exec .norm s = .next t
      ∧ t = { s with mem := { s.mem with rx := t.mem.rx }, err := .ok }
      ∧ (∀ j n : Nat, j < s.rxLen.toNat → n < 0xFFFFFFFF →
          ((t.rxAt j).toNat = n ↔
            (n : Int) * s.unitUs.toNat - (s.unitUs.toNat / 2 : Nat)
                ≤ ((s.rxAt j).toNat : Int) * s.tickUs.toNat
            ∧ ((s.rxAt j).toNat : Int) * s.tickUs.toNat
                < ((n : Int) + 1) * s.unitUs.toNat - (s.unitUs.toNat / 2 : Nat)))
      ∧ ∀ j, s.rxLen.toNat ≤ j → t.rxAt j = s.rxAt j

/-- R106: "When TICK_US = UNIT_US, NORMFN(x) = x for every x, so NORM changes nothing". -/
def Obligations.NormIsIdentityAtEqualScales : Prop :=
  ∀ s : State, ¬ BadCapture s → s.tickUs = s.unitUs →
    ∃ t, exec .norm s = .next t ∧ ∀ j, t.rxAt j = s.rxAt j

/-- R104: MDEC completes on legal arguments; its RESULT and RXBUF are what the rule's loop, run to
its end with no bound, returns and leaves, within `END - START + 1` iterations; nothing else
changes. -/
def Obligations.MdecRunsTheStepList : Prop :=
  ∀ s : State, ¬ BadWindow s →
    ∃ (t : State) (k : Nat) (u' : Units), exec .mdec s = .next t
      ∧ PayloadDecode s.endIdx.toNat (fun j => (s.rxAt j).toNat) s.start.toNat
          (polarityOf s.start.toNat) 0 k t.result u'
      ∧ k ≤ s.endIdx.toNat - s.start.toNat + 1
      ∧ (∀ j, (t.rxAt j).toNat = u' j)
      ∧ t = { s with mem := { s.mem with rx := t.mem.rx }, result := t.result, err := .ok }

/-- R105, R57: MDEC lowers an entry only by exactly 1, only from 2 or more, and only strictly inside
its window. -/
def Obligations.BorrowsTakeOneUnit : Prop :=
  ∀ s t : State, exec .mdec s = .next t → ∀ j,
    t.rxAt j = s.rxAt j
    ∨ (s.start.toNat < j ∧ j < s.endIdx.toNat ∧ 2 ≤ (s.rxAt j).toNat
        ∧ (t.rxAt j).toNat + 1 = (s.rxAt j).toNat)

/-- R107: "START ≥ END returns 0, because rd(START) = 0", and the capture stays. -/
def Obligations.EmptyWindowDecodesToZero : Prop :=
  ∀ s : State, ¬ BadWindow s → s.endIdx.toNat ≤ s.start.toNat →
    ∃ t, exec .mdec s = .next t ∧ t.err = .ok ∧ t.result = 0 ∧ ∀ j, t.rxAt j = s.rxAt j

/-! ## The frame decoder -/

/-- R110, R113: FRDEC completes on legal arguments; REP0 to REP2, REPCOUNT and RXBUF are what the
rule's scan of the normalised capture finds and leaves, RESULT is their majority and NOCONS says
whether it is 0; nothing else changes. -/
def Obligations.FrdecRunsTheScan : Prop :=
  ∀ s : State, ¬ BadCapture s →
    ∃ (t : State) (reps : List Code) (u' : Units), exec .frdec s = .next t
      ∧ FrameScan s.rxLen.toNat 0 []
          (fun j => if j < s.rxLen.toNat then
              min (((s.rxAt j).toNat * s.tickUs.toNat + s.unitUs.toNat / 2) / s.unitUs.toNat)
                0xFFFFFFFF
            else (s.rxAt j).toNat)
          reps u'
      ∧ (∀ j, (t.rxAt j).toNat = u' j)
      ∧ t.rep0 = reps.getD 0 0 ∧ t.rep1 = reps.getD 1 0 ∧ t.rep2 = reps.getD 2 0
      ∧ t.repCount.toNat = reps.length
      ∧ t.result = majority t.rep0 t.rep1 t.rep2 ∧ (t.nocons = true ↔ t.result = 0)
      ∧ t = { s with mem := { s.mem with rx := t.mem.rx }, rep0 := t.rep0, rep1 := t.rep1,
                     rep2 := t.rep2, repCount := t.repCount, result := t.result,
                     nocons := t.nocons, err := .ok }

/-- R113: "RXLEN = 0 or 1 finds no boundary." -/
def Obligations.ShortCaptureFindsNothing : Prop :=
  ∀ s : State, ¬ BadCapture s → s.rxLen.toNat ≤ 1 →
    ∃ t, exec .frdec s = .next t ∧ t.repCount = 0 ∧ t.rep0 = 0 ∧ t.rep1 = 0 ∧ t.rep2 = 0
      ∧ t.result = 0 ∧ t.nocons = true ∧ t.err = .ok

/-- R109: VOTE completes from every state with RESULT the majority; the majority is nonzero exactly
when two of the three are equal and nonzero, is the value of any equal pair, and does not depend on
the order. -/
def Obligations.VoteIsTheMajority : Prop :=
  (∀ s : State,
    exec .vote s = .next { s with result := majority s.rep0 s.rep1 s.rep2,
                                  nocons := majority s.rep0 s.rep1 s.rep2 == 0, err := .ok })
  ∧ ∀ a b c : Code,
    (majority a b c ≠ 0 ↔ (a = b ∧ a ≠ 0) ∨ (a = c ∧ a ≠ 0) ∨ (b = c ∧ b ≠ 0))
    ∧ (a = b → majority a b c = a) ∧ (a = c → majority a b c = a) ∧ (b = c → majority a b c = b)
    ∧ majority a b c = majority b a c ∧ majority a b c = majority a c b

/-- R115: RX completes on legal arguments; it does what FRDEC does and then, where RESULT is not 0,
applies RESULT to CFG; a failed receive leaves CFG, and a refused one changes nothing but ERR. -/
def Obligations.RxAppliesTheResult : Prop :=
  ∀ s : State, ∃ t u, exec .frdec s = .next t ∧ exec .rx s = .next u
    ∧ (¬ BadCapture s → u.err = .ok ∧ t.err = .ok)
    ∧ (¬ BadCapture s → t.result = 0 → u = t)
    ∧ (¬ BadCapture s → t.result ≠ 0 → u = { t with cfg := unpackedCfg s.cfg t.result })
    ∧ (BadCapture s → u = { s with err := .badArg })

/-! ## Errors, flags and frames of every command -/

/-- R121, R122: each command ends with the code the table gives it, by the priorities given;
ILLEGAL_OP comes from the dispatcher alone, exactly for illegal words; and "STATUS.ERR is the whole
record" of an error. -/
def Obligations.ErrorCodesFollowTheTable : Prop :=
  (∀ (i : Instr) (s : State), ∃ t, exec i s = .next t ∧ EndsWith i s t.err)
  ∧ ∀ (s : State) (w : Word), ∃ t, runCommandWord s w = .next t
      ∧ (t.err = .illegalOp ↔ IllegalCommandWord w)
      ∧ (t.err ≠ .ok → t = { s with err := t.err })

/-- R123: "After an error the state is exactly the state before the command, except STATUS.ERR." -/
def Obligations.ErrorsArePrecise : Prop :=
  ∀ (s : State) (w : Word) (t : State), runCommandWord s w = .next t → t.err ≠ .ok →
    t = { s with err := t.err }

/-- R19: NOCONS is written only by FRDEC, RX and VOTE, only when they complete without error, and
then says whether RESULT is 0. -/
def Obligations.NoconsMirrorsAZeroVote : Prop :=
  ∀ (s : State) (w : Word), ∃ t, runCommandWord s w = .next t
    ∧ ((∃ i, w = encode i ∧ votes i = true ∧ t.err = .ok) → (t.nocons = true ↔ t.result = 0))
    ∧ (¬ (∃ i, w = encode i ∧ votes i = true ∧ t.err = .ok) → t.nocons = s.nocons)

/-- R20 to R44: which registers each command can write. The host's own registers, power_setting and
swing_h are written by none. -/
def Obligations.CommandsWriteOnlyTheirRegisters : Prop :=
  ∀ (i : Instr) (s : State), ∃ t, exec i s = .next t
    ∧ t.codeIn = s.codeIn ∧ t.bits = s.bits ∧ t.start = s.start ∧ t.endIdx = s.endIdx
    ∧ t.rxLen = s.rxLen ∧ t.tickUs = s.tickUs ∧ t.unitUs = s.unitUs
    ∧ t.cfg.powerSetting = s.cfg.powerSetting ∧ t.cfg.swingH = s.cfg.swingH
    ∧ t.params = s.params ∧ t.resets = s.resets ∧ t.inputs = s.inputs
    ∧ t.readData = s.readData ∧ t.handedOff = s.handedOff
    ∧ (t.cfg ≠ s.cfg → i = .fdec ∨ i = .rx)
    ∧ (t.result ≠ s.result → i ≠ .nop ∧ i ≠ .fdec ∧ i ≠ .menc ∧ i ≠ .norm)
    ∧ (t.txLen ≠ s.txLen ∨ t.mem.tx ≠ s.mem.tx → i = .menc ∨ i = .frenc ∨ i = .frencN)
    ∧ (t.mem.rx ≠ s.mem.rx → i = .norm ∨ i = .mdec ∨ i = .frdec ∨ i = .rx)
    ∧ (t.rep0 ≠ s.rep0 ∨ t.rep1 ≠ s.rep1 ∨ t.rep2 ≠ s.rep2 ∨ t.repCount ≠ s.repCount →
        i = .frdec ∨ i = .rx)

/-- R57: every buffer entry a command changes lies in the range the table gives it. -/
def Obligations.BufferWritesStayInRange : Prop :=
  ∀ (i : Instr) (s : State), s.params.Valid → ∃ t, exec i s = .next t
    ∧ (∀ j, t.txAt j ≠ s.txAt j →
        (i = .menc ∧ s.txLen.toNat ≤ j + 1 ∧ j < t.txLen.toNat)
        ∨ ((i = .frenc ∨ i = .frencN) ∧ j < t.txLen.toNat))
    ∧ (∀ j, t.rxAt j ≠ s.rxAt j →
        ((i = .norm ∨ i = .frdec ∨ i = .rx) ∧ j < s.rxLen.toNat)
        ∨ (i = .mdec ∧ s.start.toNat < j ∧ j < s.endIdx.toNat))

/-- R46, R18: "No command reads STATUS": from two states that differ only in ERR and NOCONS a command
gives states that differ at most in NOCONS, and then only where it does not vote. -/
def Obligations.NoCommandReadsStatus : Prop :=
  ∀ (i : Instr) (s : State) (e : ErrCode) (b : Bool), ∃ t, exec i s = .next t
    ∧ exec i { s with err := e, nocons := b }
        = .next (if votes i = true ∧ t.err = .ok then t else { t with nocons := b })

/-- R43, R44: "No command reads an entry at or beyond TXLEN" or RXLEN: two states that differ only
there give the same registers and the same valid entries. -/
def Obligations.EntriesBeyondTheLengthsAreNotRead : Prop :=
  ∀ (i : Instr) (s s' : State),
    s' = { s with mem := s'.mem } →
    (∀ j, j < s.txLen.toNat → s'.txAt j = s.txAt j) →
    (∀ j, j < s.rxLen.toNat → s'.rxAt j = s.rxAt j) →
    ∃ t t', exec i s = .next t ∧ exec i s' = .next t'
      ∧ t' = { t with mem := t'.mem }
      ∧ (∀ j, j < t.txLen.toNat → t'.txAt j = t.txAt j)
      ∧ (∀ j, j < t.rxLen.toNat → t'.rxAt j = t.rxAt j)

/-- R140, R131: while the transmit driver sends, a host that keeps its duties changes neither TXLEN
nor any entry of TXBUF. -/
def Obligations.DutifulHostLeavesTheTransmission : Prop :=
  ∀ (mon : Monitor) (s : State) (m : Input) (rest : List Input),
    mon.transmitting = true → hostMay mon s m = true → m ≠ .reset → s.inputs = m :: rest →
    ∃ t, step s = .next t ∧ t.txLen = s.txLen ∧ t.mem.tx = s.mem.tx

/-- R131, R136, R121: a host that keeps its duties gets no error from NORM, FRDEC or RX while UNIT_US is
not 0, no error from MDEC while END is at most RXLEN, and no error and a well-formed code (R72) from
FENC, FENC.N, FRENC and FRENC.N. What the duties ask is the model's reading (log 20). -/
def Obligations.DutifulDecodesAndFieldEncodesSucceed : Prop :=
  ∀ (mon : Monitor) (s : State) (m : Input) (rest : List Input) (i : Instr),
    hostMay mon s m = true → issuedCommand s.params m = some i → s.inputs = m :: rest →
    ∃ t, step s = .next t
      ∧ (i = .norm ∨ i = .frdec ∨ i = .rx → s.unitUs ≠ 0 → t.err = .ok)
      ∧ (i = .mdec → s.endIdx.toNat ≤ s.rxLen.toNat → t.err = .ok)
      ∧ (i = .fenc ∨ i = .fencN ∨ i = .frenc ∨ i = .frencN →
          t.err = .ok ∧ WellFormedCode t.result)

/-! ## Sending and receiving -/

/-- R111: "Take any code c < 2^34 and let F = FRAME(c)": the frame decoder gives the code back, three
times over. -/
def Obligations.FrameRoundTrip : Prop :=
  ∀ c : Code, c.toNat < 2 ^ 34 →
    ∃ f, frame c = .ok f
      ∧ (frameDec f f.length).res = c ∧ (frameDec f f.length).rep0 = c
      ∧ (frameDec f f.length).rep1 = c ∧ (frameDec f f.length).rep2 = c
      ∧ (frameDec f f.length).count = 3

/-- R102, R111, R113: a capture of what FRENC or FRENC.N sent, every entry within half a unit, is
decoded by FRDEC to the code sent, by all three repetitions. -/
def Obligations.JitteredFrameIsReceived : Prop :=
  ∀ (n : Bool) (s t r : State), Received n s t r →
    ∃ u, exec .frdec r = .next u
      ∧ u.result = t.result ∧ u.rep0 = t.result ∧ u.rep1 = t.result ∧ u.rep2 = t.result
      ∧ u.repCount = 3 ∧ u.nocons = false ∧ u.err = .ok

/-- R87, R88, R115: the configuration one block sends reaches another through FRENC or FRENC.N, a
jittered capture and RX: mode, fan, swing, sleep, ifeel and the one temperature are the sender's,
power_real is flipped exactly on the sender's mismatch, and the rest of the receiver's record stays. -/
def Obligations.ConfigurationIsTransferred : Prop :=
  ∀ (n : Bool) (s t r : State), Received n s t r → InRange s.cfg →
    ∃ u, exec .rx r = .next u
      ∧ u.cfg.mode = s.cfg.mode ∧ u.cfg.fan = s.cfg.fan ∧ u.cfg.swing = s.cfg.swing
      ∧ u.cfg.sleep = s.cfg.sleep ∧ u.cfg.ifeel = s.cfg.ifeel
      ∧ u.cfg.temperature = (if n then r.cfg.temperature else s.cfg.temperature)
      ∧ u.cfg.ifeelTemperature
          = (if n then s.cfg.ifeelTemperature else r.cfg.ifeelTemperature)
      ∧ (u.cfg.powerReal = r.cfg.powerReal ↔ s.cfg.powerSetting = s.cfg.powerReal)
      ∧ u.cfg.powerSetting = r.cfg.powerSetting ∧ u.cfg.swingH = r.cfg.swingH
end

