-- ==== Sys2Proof/Laws/Encoder.lean ====
section
/-! SUPPORT. The encoder from the end of the sequence: what EMIT, one bit, ENCODE_BITS and FRAME do to a
sequence whose last entry is known. -/

namespace Sys2Proof.Machine

@[simp] theorem Polarity_flip_flip (p : Polarity) : p.flip.flip = p := by cases p <;> rfl

theorem pol_succ (j : Nat) : pol (j + 1) = (pol j).flip := by
  unfold pol
  split <;> split <;> first | rfl | omega

theorem pol_add_two (j : Nat) : pol (j + 2) = pol j := by simp [pol_succ]

/-! ## EMIT (R91) -/

theorem emit_nil_mark (d : Nat) : emit [] .mark d = .ok [d] := rfl

theorem emit_nil_space (d : Nat) : emit [] .space d = .error .emptySpace := rfl

theorem modify_last (seq : List Nat) (x : Nat) (f : Nat → Nat) :
    (seq ++ [x]).modify seq.length f = seq ++ [f x] := by
  induction seq with
  | nil => rfl
  | cons y ys ih => simpa using ih

/-- EMIT on a non-empty sequence: merge at equal polarity, else append. -/
theorem emit_snoc (seq : List Nat) (x : Nat) (p : Polarity) (d : Nat) :
    emit (seq ++ [x]) p d
      = .ok (if pol seq.length = p then seq ++ [x + d] else seq ++ [x, d]) := by
  unfold emit
  by_cases h : pol seq.length = p
  · simp [h, modify_last]
  · simp [h]

/-- What EMIT can do (R91): merge into the last entry, append, or raise EMPTY_SPACE. -/
theorem emit_cases (seq : List Nat) (p : Polarity) (d : Nat) :
    (∃ pre x, seq = pre ++ [x] ∧ pol pre.length = p ∧ emit seq p d = .ok (pre ++ [x + d]))
    ∨ (∃ pre x, seq = pre ++ [x] ∧ pol pre.length ≠ p ∧ emit seq p d = .ok (seq ++ [d]))
    ∨ (seq = [] ∧ p = .mark ∧ emit seq p d = .ok [d])
    ∨ (seq = [] ∧ p = .space ∧ emit seq p d = .error .emptySpace) := by
  rcases List.eq_nil_or_concat seq with rfl | ⟨pre, x, rfl⟩
  · cases p
    · exact .inr (.inr (.inl ⟨rfl, rfl, rfl⟩))
    · exact .inr (.inr (.inr ⟨rfl, rfl, rfl⟩))
  · by_cases h : pol pre.length = p
    · exact .inl ⟨pre, x, by simp, h, by simp [emit_snoc, h]⟩
    · exact .inr (.inl ⟨pre, x, by simp, h, by simp [emit_snoc, h]⟩)

/-! ## ENCODE_BITS (R92) -/

/-- The polarity of a bit's second half (R90), the level after the bit (R93). -/
def secondHalf (b : Bool) : Polarity := if b then .mark else .space

/-- The last entry and the new ones, after the low `n` bits of a code on a sequence whose last entry
`x` has polarity `lev`. -/
def bitsTail (code : Code) : Nat → Polarity → Nat → List Nat
  | 0, _, x => [x]
  | k + 1, lev, x =>
    if lev = secondHalf (code.getLsbD k) then
      x :: 1 :: bitsTail code k (secondHalf (code.getLsbD k)) 1
    else (x + 1) :: bitsTail code k (secondHalf (code.getLsbD k)) 1

theorem emitBit_snoc (seq : List Nat) (x : Nat) (b : Bool) :
    emitBit (seq ++ [x]) b
      = .ok (if pol seq.length = secondHalf b
          then seq ++ [x, 1, 1] else seq ++ [x + 1, 1]) := by
  unfold emitBit secondHalf
  rw [emit_snoc]
  cases b <;> cases hp : pol seq.length <;>
    simp only [Bool.false_eq_true, ite_true, ite_false, reduceCtorEq, Bind.bind, Except.bind]
  · rw [emit_snoc]
    simp [hp]
  · rw [show seq ++ [x, 1] = (seq ++ [x]) ++ [1] by simp, emit_snoc]
    simp [pol_succ, hp, Polarity.flip]
  · rw [show seq ++ [x, 1] = (seq ++ [x]) ++ [1] by simp, emit_snoc]
    simp [pol_succ, hp, Polarity.flip]
  · rw [emit_snoc]
    simp [hp]

/-- ENCODE_BITS on a non-empty sequence never fails, and touches only the last entry. -/
theorem encodeBits_snoc (code : Code) (n : Nat) (seq : List Nat) (x : Nat) :
    encodeBits code n (seq ++ [x]) = .ok (seq ++ bitsTail code n (pol seq.length) x) := by
  induction n generalizing seq x with
  | zero => rfl
  | succ k ih =>
    simp only [encodeBits, emitBit_snoc, Bind.bind, Except.bind]
    by_cases h : pol seq.length = secondHalf (code.getLsbD k)
    · simp only [h, ite_true, bitsTail]
      rw [show seq ++ [x, 1, 1] = (seq ++ [x, 1]) ++ [1] by simp, ih]
      simp [pol_add_two, h]
    · simp only [h, ite_false, bitsTail]
      rw [show seq ++ [x + 1, 1] = (seq ++ [x + 1]) ++ [1] by simp, ih]
      have : pol (seq ++ [x + 1]).length = secondHalf (code.getLsbD k) := by
        simp only [List.length_append, List.length_cons, List.length_nil, Nat.zero_add, pol_succ]
        revert h
        unfold secondHalf
        cases code.getLsbD k <;> cases pol seq.length <;> simp [Polarity.flip]
      rw [this]
      simp

/-- ENCODE_BITS on an empty sequence: nothing, an error, or a first mark and space. -/
theorem encodeBits_nil (code : Code) (n : Nat) :
    encodeBits code n [] = match n with
      | 0 => .ok []
      | k + 1 => if code.getLsbD k then .error .emptySpace
          else .ok (1 :: bitsTail code k .space 1) := by
  cases n with
  | zero => rfl
  | succ k =>
    simp only [encodeBits]
    cases code.getLsbD k
    · have : emitBit [] false = .ok ([1] ++ [1]) := rfl
      simp only [this, Bind.bind, Except.bind, encodeBits_snoc]
      simp [pol]
    · rfl

theorem bitsTail_ne_nil (code : Code) (n : Nat) (lev : Polarity) (x : Nat) :
    bitsTail code n lev x ≠ [] := by
  cases n <;> simp only [bitsTail] <;> (try split) <;> simp

theorem bitsTail_sum (code : Code) (n : Nat) (lev : Polarity) (x : Nat) :
    (bitsTail code n lev x).sum = x + 2 * n := by
  induction n generalizing lev x with
  | zero => simp [bitsTail]
  | succ k ih =>
    simp only [bitsTail]
    split <;> simp only [List.sum_cons, ih] <;> omega

/-- Every entry after the first of a tail is 1 or 2, and the first has grown by at most 1. -/
theorem bitsTail_entries (code : Code) (n : Nat) (lev : Polarity) (x : Nat) :
    ∃ y t, bitsTail code n lev x = y :: t ∧ x ≤ y ∧ y ≤ x + 1 ∧ ∀ d ∈ t, d = 1 ∨ d = 2 := by
  induction n generalizing lev x with
  | zero => exact ⟨x, [], rfl, Nat.le_refl _, Nat.le_succ _, by simp⟩
  | succ k ih =>
    simp only [bitsTail]
    obtain ⟨y, t, ht, h₁, h₂, h₃⟩ :=
      ih (secondHalf (code.getLsbD k)) 1
    rw [ht]
    split
    · refine ⟨x, 1 :: y :: t, rfl, Nat.le_refl _, Nat.le_succ _, ?_⟩
      intro d hd
      rcases List.mem_cons.1 hd with rfl | hd
      · exact .inl rfl
      rcases List.mem_cons.1 hd with rfl | hd
      · omega
      · exact h₃ d hd
    · refine ⟨x + 1, y :: t, rfl, Nat.le_succ _, Nat.le_refl _, ?_⟩
      intro d hd
      rcases List.mem_cons.1 hd with rfl | hd
      · omega
      · exact h₃ d hd

end Sys2Proof.Machine
end

