-- ==== Sys2Proof/Laws/Decoder.lean ====
section
/-! SUPPORT. The decoder: what a decode leaves alone, that its iteration bound is never reached, and that
it reads back what the encoder wrote. -/

namespace Sys2Proof.Machine

/-! ## Reading the window (R103) -/

theorem windowRead_append (pre l : List Nat) (stop j : Nat) (h : pre.length + j < stop) :
    windowRead (pre ++ l) stop (pre.length + j) = l.getD j 0 := by
  simp [windowRead, h, List.getElem?_append_right]

theorem windowRead_beyond (u : List Nat) (stop j : Nat) (h : stop ≤ j) :
    windowRead u stop j = 0 := if_neg (by omega)

/-! ## What a decode leaves (R104, R105) -/

@[simp] theorem mdecLoop_length (fuel : Nat) (u : List Nat) (stop i : Nat) (ph : Polarity)
    (acc : Code) : (mdecLoop fuel u stop i ph acc).2.length = u.length := by
  induction fuel generalizing u i ph acc with
  | zero => rfl
  | succ fuel ih =>
    simp only [mdecLoop]
    split
    · split
      · exact ih ..
      · rw [ih, List.length_set]
    · split <;> rfl

/-- A decode changes entries only after its position and inside its window. -/
theorem mdecLoop_outside (fuel : Nat) (u : List Nat) (stop i : Nat) (ph : Polarity) (acc : Code)
    (j : Nat) (h : j ≤ i ∨ stop ≤ j) :
    (mdecLoop fuel u stop i ph acc).2[j]? = u[j]? := by
  induction fuel generalizing u i ph acc with
  | zero => rfl
  | succ fuel ih =>
    simp only [mdecLoop]
    split
    · rename_i hv
      have hi : i + 1 < stop := by
        by_cases hs : i + 1 < stop
        · exact hs
        · rw [windowRead_beyond _ _ (i + 1) (by omega)] at hv
          omega
      split
      · exact ih _ _ _ _ (by omega)
      · rw [ih _ _ _ _ (by omega), List.getElem?_set_ne (by omega)]
    · split <;> rfl

@[simp] theorem mdecFn_length (u : List Nat) (start stop : Nat) :
    (mdecFn u start stop).2.length = u.length := mdecLoop_length ..

/-- Entries up to the start and at or beyond the window's end stay (R57: "START < j < END"). -/
theorem mdecFn_outside (u : List Nat) (start stop j : Nat) (h : j ≤ start ∨ stop ≤ j) :
    (mdecFn u start stop).2[j]? = u[j]? := mdecLoop_outside _ _ _ _ _ _ _ h

/-- R104: "after at most `end − start + 1` iterations" the loop has returned, so more fuel changes
nothing. -/
theorem mdecLoop_fuel (fuel extra : Nat) (u : List Nat) (stop i : Nat) (ph : Polarity)
    (acc : Code) (h : stop - i + 1 ≤ fuel) :
    mdecLoop (fuel + extra) u stop i ph acc = mdecLoop fuel u stop i ph acc := by
  induction fuel generalizing u i ph acc with
  | zero => omega
  | succ fuel ih =>
    rw [Nat.succ_add]
    simp only [mdecLoop]
    split
    · rename_i hv
      have hi : i + 1 < stop := by
        by_cases hs : i + 1 < stop
        · exact hs
        · rw [windowRead_beyond _ _ (i + 1) (by omega)] at hv
          omega
      split
      · exact ih _ _ _ _ (by omega)
      · exact ih _ _ _ _ (by omega)
    · rfl

/-! ## Reading back an encoded payload -/

/-- `bitsTail` with the mark of `m` units that follows it: appended after a space, merged into a
mark (R91), and then the entries of `rest`. -/
def closedTail (code : Code) (m : Nat) (rest : List Nat) : Nat → Polarity → Nat → List Nat
  | 0, lev, x => if lev = .mark then (x + m) :: rest else x :: m :: rest
  | k + 1, lev, x =>
    if lev = secondHalf (code.getLsbD k) then
      x :: 1 :: closedTail code m rest k (secondHalf (code.getLsbD k)) 1
    else (x + 1) :: closedTail code m rest k (secondHalf (code.getLsbD k)) 1

/-- The low `k` bits of a code shifted into an accumulator, most significant first (R55). -/
def shiftIn (code : Code) : Nat → Code → Code
  | 0, acc => acc
  | k + 1, acc => shiftIn code k (2 * acc + if code.getLsbD k then 1 else 0)

theorem pushBit_first_half (acc : Code) (b : Bool) :
    pushBit acc (secondHalf b).flip = 2 * acc + if b then 1 else 0 := by
  cases b <;> rfl

/-- The value of the bits shifted in, mod 2^64. -/
theorem shiftIn_toNat (code : Code) (k : Nat) (acc : Code) :
    (shiftIn code k acc).toNat = (acc.toNat * 2 ^ k + code.toNat % 2 ^ k) % 2 ^ 64 := by
  induction k generalizing acc with
  | zero => simp [shiftIn, Nat.mod_one, Nat.mod_eq_of_lt acc.isLt]
  | succ k ih =>
    have hb : ((if code.getLsbD k then 1 else 0 : Code)).toNat = code.toNat / 2 ^ k % 2 := by
      rw [← Nat.toNat_testBit, BitVec.testBit_toNat]
      cases code.getLsbD k <;> rfl
    have hacc : (2 * acc + if code.getLsbD k then 1 else 0 : Code).toNat
        = (2 * acc.toNat + code.toNat / 2 ^ k % 2) % 2 ^ 64 := by
      rw [BitVec.toNat_add, BitVec.toNat_mul, hb, show (2 : Code).toNat = 2 from rfl]
      omega
    have hlow : code.toNat % 2 ^ (k + 1)
        = code.toNat % 2 ^ k + 2 ^ k * (code.toNat / 2 ^ k % 2) := Nat.mod_pow_succ
    have hmod (x y l M : Nat) : (x % M * y + l) % M = (x * y + l) % M := by
      simp [Nat.add_mod, Nat.mul_mod]
    rw [shiftIn, ih, hacc, hlow, hmod]
    congr 1
    rw [Nat.add_mul, Nat.mul_comm 2 acc.toNat, Nat.mul_assoc, Nat.mul_comm 2 (2 ^ k),
      show 2 ^ k * 2 = 2 ^ (k + 1) from (Nat.pow_succ ..).symm, Nat.mul_comm (code.toNat / 2 ^ k % 2)]
    omega

/-- R111, steps 1, 2 and 4: from the first half of a bit `b`, followed by what the encoder wrote for
the second half, for `k` more bits and for a closing mark of 3 or 4 units, the loop gives every bit
back and leaves entries of one unit up to the closing mark, which stands at a mark's index. -/
theorem mdecLoop_closedTail (code : Code) (m : Nat) (hm : m = 3 ∨ m = 4) (rest : List Nat)
    (stop : Nat) (k : Nat) (pre : List Nat) (b : Bool) (acc : Code) (fuel : Nat)
    (hpol : pol pre.length = (secondHalf b).flip)
    (hstop : (pre ++ 1 :: closedTail code m [] k (secondHalf b) 1).length ≤ stop)
    (hfuel : stop - pre.length + 1 ≤ fuel) :
    ∃ ones, 1 ≤ ones ∧ pol (pre.length + ones) = .mark
      ∧ pre.length + ones < stop
      ∧ mdecLoop fuel (pre ++ 1 :: closedTail code m rest k (secondHalf b) 1) stop pre.length
          (secondHalf b).flip acc
        = (shiftIn code k (2 * acc + if b then 1 else 0),
            pre ++ (List.replicate ones 1 ++ m :: rest)) := by
  induction k generalizing pre b acc fuel with
  | zero =>
    obtain ⟨fuel, rfl⟩ : ∃ f, fuel = f + 2 := by
      refine ⟨fuel - 2, ?_⟩
      simp only [closedTail, List.length_append, List.length_cons] at hstop
      split at hstop <;> simp only [List.length_cons, List.length_nil] at hstop <;> omega
    cases b
    · simp only [secondHalf, closedTail, Bool.false_eq_true, ite_false, reduceCtorEq,
        List.length_append, List.length_cons, List.length_nil] at hstop hpol ⊢
      refine ⟨2, by omega, by rw [pol_add_two, hpol]; rfl, by omega, ?_⟩
      have h₀ := windowRead_append pre (1 :: 1 :: m :: rest) stop 0 (by omega)
      have h₁ := windowRead_append pre (1 :: 1 :: m :: rest) stop 1 (by omega)
      have h₂ := windowRead_append pre (1 :: 1 :: m :: rest) stop 2 (by omega)
      simp only [Nat.add_zero, List.getD_cons_zero, List.getD_cons_succ] at h₀ h₁ h₂
      have hm1 : m ≠ 1 := by omega
      simp only [mdecLoop, h₀, h₁, h₂, hm1, hm, false_and, ite_false, ite_true, and_self,
        Nat.zero_lt_one, shiftIn]
      rfl
    · simp only [secondHalf, closedTail, ite_true,
        List.length_append, List.length_cons, List.length_nil] at hstop hpol ⊢
      refine ⟨1, by omega, by rw [pol_succ, hpol]; rfl, by omega, ?_⟩
      have h₀ := windowRead_append pre (1 :: (1 + m) :: rest) stop 0 (by omega)
      have h₁ := windowRead_append pre (1 :: (1 + m) :: rest) stop 1 (by omega)
      have h₂ := windowRead_append pre (1 :: m :: rest) stop 1 (by omega)
      simp only [Nat.add_zero, List.getD_cons_zero, List.getD_cons_succ] at h₀ h₁ h₂
      have hm1 : m ≠ 1 := by omega
      have hm2 : ¬ (1 + m = 1) := by omega
      have hset : (pre ++ 1 :: (1 + m) :: rest).set (pre.length + 1) (1 + m - 1)
          = pre ++ 1 :: m :: rest := by
        rw [List.set_append_right _ _ (by omega)]
        simp
      simp only [mdecLoop, h₀, h₁, hset, h₂, hm1, hm2, hm, false_and, ite_false, ite_true, true_and,
        show 0 < 1 + m by omega, shiftIn]
      rfl
  | succ k ih =>
    have hlen : pre.length + 1 < stop := by
      simp only [closedTail] at hstop
      split at hstop <;> simp only [List.length_append, List.length_cons] at hstop <;> omega
    obtain ⟨fuel, rfl⟩ : ∃ f, fuel = f + 1 := ⟨fuel - 1, by omega⟩
    by_cases hb : secondHalf b = secondHalf (code.getLsbD k)
    · have hbb : b = code.getLsbD k := by
        revert hb
        cases b <;> cases code.getLsbD k <;> simp [secondHalf]
      simp only [closedTail, hb, ite_true] at hstop ⊢
      have h₀ := windowRead_append pre
        (1 :: 1 :: 1 :: closedTail code m rest k (secondHalf (code.getLsbD k)) 1) stop 0 (by omega)
      have h₁ := windowRead_append pre
        (1 :: 1 :: 1 :: closedTail code m rest k (secondHalf (code.getLsbD k)) 1) stop 1 (by omega)
      simp only [Nat.add_zero, List.getD_cons_zero, List.getD_cons_succ] at h₀ h₁
      simp only [mdecLoop, h₀, h₁, true_and, Nat.zero_lt_one, ite_true, pushBit_first_half]
      obtain ⟨ones, h1, hp, hlt, heq⟩ := ih (pre ++ [1, 1]) (code.getLsbD k)
        (2 * acc + if code.getLsbD k then 1 else 0) fuel
        (by simp [pol_add_two, hpol, hb]) (by simpa using hstop)
        (by simp only [List.length_append, List.length_cons, List.length_nil]; omega)
      refine ⟨ones + 2, by omega, ?_, ?_, ?_⟩
      · rw [← hp]
        congr 1
        simp only [List.length_append, List.length_cons, List.length_nil]
        omega
      · simp only [List.length_append, List.length_cons, List.length_nil] at hlt
        omega
      · simp only [List.append_assoc, List.cons_append, List.nil_append, List.length_append,
          List.length_cons, List.length_nil, Nat.zero_add, Nat.reduceAdd] at heq
        rw [heq, hbb]
        simp only [shiftIn, List.replicate_succ, List.cons_append]
    · have hflip : (secondHalf b).flip.flip = (secondHalf (code.getLsbD k)).flip := by
        revert hb
        cases b <;> cases code.getLsbD k <;> simp [secondHalf, Polarity.flip]
      simp only [closedTail, hb, ite_false] at hstop ⊢
      have h₀ := windowRead_append pre
        (1 :: (1 + 1) :: closedTail code m rest k (secondHalf (code.getLsbD k)) 1) stop 0 (by omega)
      have h₁ := windowRead_append pre
        (1 :: (1 + 1) :: closedTail code m rest k (secondHalf (code.getLsbD k)) 1) stop 1 (by omega)
      simp only [Nat.add_zero, List.getD_cons_zero, List.getD_cons_succ] at h₀ h₁
      have hset : (pre ++ 1 :: (1 + 1) :: closedTail code m rest k (secondHalf (code.getLsbD k)) 1).set
          (pre.length + 1) (1 + 1 - 1)
          = pre ++ 1 :: 1 :: closedTail code m rest k (secondHalf (code.getLsbD k)) 1 := by
        rw [List.set_append_right _ _ (by omega)]
        simp
      simp only [mdecLoop, h₀, h₁, hset, true_and, show ¬ (1 + 1 = 1) by omega, ite_false,
        show 0 < 1 + 1 by omega, ite_true, pushBit_first_half, hflip]
      obtain ⟨ones, h1, hp, hlt, heq⟩ := ih (pre ++ [1]) (code.getLsbD k)
        (2 * acc + if b then 1 else 0) fuel
        (by
          simp only [List.length_append, List.length_cons, List.length_nil, Nat.zero_add, pol_succ,
            hpol, hflip])
        (by simpa using hstop)
        (by simp only [List.length_append, List.length_cons, List.length_nil]; omega)
      refine ⟨ones + 1, by omega, ?_, ?_, ?_⟩
      · rw [← hp]
        congr 1
        simp only [List.length_append, List.length_cons, List.length_nil]
        omega
      · simp only [List.length_append, List.length_cons, List.length_nil] at hlt
        omega
      · simp only [List.append_assoc, List.cons_append, List.nil_append, List.length_append,
          List.length_cons, List.length_nil, Nat.zero_add] at heq
        rw [heq]
        simp only [shiftIn, List.replicate_succ, List.cons_append]

end Sys2Proof.Machine
end

