-- ==== Sys2Proof/Laws/Frame.lean ====
section
/-! SUPPORT. FRAME in closed form: the first preamble mark, and then one closed tail per repetition. -/

namespace Sys2Proof.Machine

/-- A closed tail ends in the closing mark, at a mark's index, with `rest` right after it. -/
theorem closedTail_split (code : Code) (m k : Nat) (lev : Polarity) (x : Nat) (pre : List Nat)
    (h : pol pre.length = lev) :
    ∃ body y, pol (pre.length + body.length) = .mark
      ∧ ∀ rest, closedTail code m rest k lev x = body ++ y :: rest := by
  induction k generalizing lev x pre with
  | zero =>
    cases lev
    · exact ⟨[], x + m, by simpa using h, fun _ => rfl⟩
    · exact ⟨[x], m, by simp [pol_succ, h, Polarity.flip], fun _ => rfl⟩
  | succ k ih =>
    by_cases hl : lev = secondHalf (code.getLsbD k)
    · obtain ⟨body, y, hp, hr⟩ := ih (secondHalf (code.getLsbD k)) 1 (pre ++ [x, 1])
        (by simp [pol_add_two, h, hl])
      refine ⟨x :: 1 :: body, y, ?_, fun rest => by simp [closedTail, hl, hr]⟩
      rw [← hp]
      congr 1
      simp only [List.length_append, List.length_cons, List.length_nil]
      omega
    · obtain ⟨body, y, hp, hr⟩ := ih (secondHalf (code.getLsbD k)) 1 (pre ++ [x + 1])
        (by
          rw [List.length_append, List.length_singleton, pol_succ, h]
          revert hl
          cases lev <;> cases code.getLsbD k <;> simp [secondHalf, Polarity.flip])
      refine ⟨(x + 1) :: body, y, ?_, fun rest => by simp [closedTail, hl, hr]⟩
      rw [← hp]
      congr 1
      simp only [List.length_append, List.length_cons, List.length_nil]
      omega

/-- Emitting the mark after a payload closes its tail (R96). -/
theorem emit_bitsTail_mark (code : Code) (m n : Nat) (lev : Polarity) (x : Nat) (pre : List Nat)
    (h : pol pre.length = lev) :
    emit (pre ++ bitsTail code n lev x) .mark m = .ok (pre ++ closedTail code m [] n lev x) := by
  induction n generalizing lev x pre with
  | zero =>
    rw [bitsTail, emit_snoc, h]
    cases lev <;> simp [closedTail]
  | succ k ih =>
    by_cases hl : lev = secondHalf (code.getLsbD k)
    · simp only [bitsTail, closedTail, if_pos hl]
      have := ih (secondHalf (code.getLsbD k)) 1 (pre ++ [x, 1]) (by simp [pol_add_two, h, hl])
      simpa using this
    · simp only [bitsTail, closedTail, if_neg hl]
      have := ih (secondHalf (code.getLsbD k)) 1 (pre ++ [x + 1]) (by
        rw [List.length_append, List.length_singleton, pol_succ, h]
        revert hl
        cases lev <;> cases code.getLsbD k <;> simp [secondHalf, Polarity.flip])
      simpa using this

/-- One repetition's space and payload after its preamble mark, closed by the next mark. -/
def repetitionTail (code : Code) (m : Nat) (rest : List Nat) : List Nat :=
  closedTail code m rest codeBits .space 3

/-- The steps from a preamble mark, the last entry, to the next mark (R96). -/
theorem emit_repetition (code : Code) (m : Nat) (pre : List Nat) (y : Nat)
    (h : pol pre.length = .mark) :
    (do let seq ← emit (pre ++ [y]) .space 3
        let seq ← encodeBits code codeBits seq
        emit seq .mark m)
      = .ok (pre ++ y :: repetitionTail code m []) := by
  rw [emit_snoc, h]
  simp only [reduceCtorEq, ite_false, Bind.bind, Except.bind]
  rw [show pre ++ [y, 3] = (pre ++ [y]) ++ [3] by simp, encodeBits_snoc]
  have hs : pol (pre ++ [y]).length = .space := by
    simp [pol_succ, h, Polarity.flip]
  simp only [hs]
  rw [emit_bitsTail_mark _ _ _ _ _ _ hs]
  simp [repetitionTail]

/-- FRAME in closed form (R96): it never fails. -/
theorem frame_eq (code : Code) :
    frame code = .ok (3 :: repetitionTail code 3 (repetitionTail code 3
      (repetitionTail code 4 []))) := by
  have step (m : Nat) (pre : List Nat) (y : Nat) (h : pol pre.length = .mark) :
      ∃ body z, pol (pre ++ y :: body).length = .mark
        ∧ ∀ rest, repetitionTail code m rest = body ++ z :: rest := by
    obtain ⟨body, z, hp, hr⟩ := closedTail_split code m codeBits .space 3 (pre ++ [y])
      (by simp [pol_succ, h, Polarity.flip])
    refine ⟨body, z, ?_, hr⟩
    rw [← hp]
    congr 1
    simp only [List.length_append, List.length_cons, List.length_nil]
    omega
  obtain ⟨b₁, z₁, hp₁, hr₁⟩ := step 3 [] 3 rfl
  obtain ⟨b₂, z₂, hp₂, hr₂⟩ := step 3 ([] ++ 3 :: b₁) z₁ hp₁
  have e₁ := emit_repetition code 3 [] 3 rfl
  have e₂ := emit_repetition code 3 ([] ++ 3 :: b₁) z₁ hp₁
  have e₃ := emit_repetition code 4 (([] ++ 3 :: b₁) ++ z₁ :: b₂) z₂ hp₂
  rw [hr₁] at e₁
  rw [hr₂] at e₂
  rw [hr₁, hr₂]
  simp only [frame, emitRepetitions, repetitions, emit_nil_mark, Bind.bind, Except.bind,
    List.nil_append, List.cons_append, List.append_assoc] at e₁ e₂ e₃ ⊢
  revert e₁ e₂ e₃
  cases emit [3] .space 3 with
  | error e => intro e₁; cases e₁
  | ok s₁ =>
    simp only
    cases encodeBits code codeBits s₁ with
    | error e => intro e₁; cases e₁
    | ok s₂ =>
      simp only
      intro e₁ e₂ e₃
      rw [e₁]
      simp only
      revert e₂
      cases emit (3 :: (b₁ ++ [z₁])) .space 3 with
      | error e => intro e₂; cases e₂
      | ok s₃ =>
        simp only
        cases encodeBits code codeBits s₃ with
        | error e => intro e₂; cases e₂
        | ok s₄ =>
          simp only
          intro e₂
          rw [e₂]
          simp only
          revert e₃
          cases emit (3 :: (b₁ ++ z₁ :: (b₂ ++ [z₂]))) .space 3 with
          | error e => intro e₃; cases e₃
          | ok s₅ =>
            simp only
            cases encodeBits code codeBits s₅ with
            | error e => intro e₃; cases e₃
            | ok s₆ => exact id

end Sys2Proof.Machine
end

