-- ==== Sys2Proof/Laws/State.lean ====
section
/-! SUPPORT. One lemma per field for each named update of the state, so that no proof unfolds a
record update. -/

namespace Sys2Proof.Machine

/-! ## `raise`: an error is raised (R123) -/

@[simp] theorem State.raise_params (e : ErrCode) (s : State) : (s.raise e).params = s.params := rfl
@[simp] theorem State.raise_err (e : ErrCode) (s : State) : (s.raise e).err = e := rfl
@[simp] theorem State.raise_nocons (e : ErrCode) (s : State) : (s.raise e).nocons = s.nocons := rfl
@[simp] theorem State.raise_codeIn (e : ErrCode) (s : State) : (s.raise e).codeIn = s.codeIn := rfl
@[simp] theorem State.raise_result (e : ErrCode) (s : State) : (s.raise e).result = s.result := rfl
@[simp] theorem State.raise_bits (e : ErrCode) (s : State) : (s.raise e).bits = s.bits := rfl
@[simp] theorem State.raise_start (e : ErrCode) (s : State) : (s.raise e).start = s.start := rfl
@[simp] theorem State.raise_endIdx (e : ErrCode) (s : State) : (s.raise e).endIdx = s.endIdx := rfl
@[simp] theorem State.raise_txLen (e : ErrCode) (s : State) : (s.raise e).txLen = s.txLen := rfl
@[simp] theorem State.raise_rxLen (e : ErrCode) (s : State) : (s.raise e).rxLen = s.rxLen := rfl
@[simp] theorem State.raise_tickUs (e : ErrCode) (s : State) : (s.raise e).tickUs = s.tickUs := rfl
@[simp] theorem State.raise_unitUs (e : ErrCode) (s : State) : (s.raise e).unitUs = s.unitUs := rfl
@[simp] theorem State.raise_cfg (e : ErrCode) (s : State) : (s.raise e).cfg = s.cfg := rfl
@[simp] theorem State.raise_repCount (e : ErrCode) (s : State) : (s.raise e).repCount = s.repCount := rfl
@[simp] theorem State.raise_rep0 (e : ErrCode) (s : State) : (s.raise e).rep0 = s.rep0 := rfl
@[simp] theorem State.raise_rep1 (e : ErrCode) (s : State) : (s.raise e).rep1 = s.rep1 := rfl
@[simp] theorem State.raise_rep2 (e : ErrCode) (s : State) : (s.raise e).rep2 = s.rep2 := rfl
@[simp] theorem State.raise_mem (e : ErrCode) (s : State) : (s.raise e).mem = s.mem := rfl
@[simp] theorem State.raise_resets (e : ErrCode) (s : State) : (s.raise e).resets = s.resets := rfl
@[simp] theorem State.raise_inputs (e : ErrCode) (s : State) : (s.raise e).inputs = s.inputs := rfl
@[simp] theorem State.raise_readData (e : ErrCode) (s : State) : (s.raise e).readData = s.readData := rfl
@[simp] theorem State.raise_handedOff (e : ErrCode) (s : State) : (s.raise e).handedOff = s.handedOff := rfl

/-! ## `complete`: a command completes (R67) -/

@[simp] theorem State.complete_params (s : State) : (s.complete).params = s.params := rfl
@[simp] theorem State.complete_err (s : State) : (s.complete).err = .ok := rfl
@[simp] theorem State.complete_nocons (s : State) : (s.complete).nocons = s.nocons := rfl
@[simp] theorem State.complete_codeIn (s : State) : (s.complete).codeIn = s.codeIn := rfl
@[simp] theorem State.complete_result (s : State) : (s.complete).result = s.result := rfl
@[simp] theorem State.complete_bits (s : State) : (s.complete).bits = s.bits := rfl
@[simp] theorem State.complete_start (s : State) : (s.complete).start = s.start := rfl
@[simp] theorem State.complete_endIdx (s : State) : (s.complete).endIdx = s.endIdx := rfl
@[simp] theorem State.complete_txLen (s : State) : (s.complete).txLen = s.txLen := rfl
@[simp] theorem State.complete_rxLen (s : State) : (s.complete).rxLen = s.rxLen := rfl
@[simp] theorem State.complete_tickUs (s : State) : (s.complete).tickUs = s.tickUs := rfl
@[simp] theorem State.complete_unitUs (s : State) : (s.complete).unitUs = s.unitUs := rfl
@[simp] theorem State.complete_cfg (s : State) : (s.complete).cfg = s.cfg := rfl
@[simp] theorem State.complete_repCount (s : State) : (s.complete).repCount = s.repCount := rfl
@[simp] theorem State.complete_rep0 (s : State) : (s.complete).rep0 = s.rep0 := rfl
@[simp] theorem State.complete_rep1 (s : State) : (s.complete).rep1 = s.rep1 := rfl
@[simp] theorem State.complete_rep2 (s : State) : (s.complete).rep2 = s.rep2 := rfl
@[simp] theorem State.complete_mem (s : State) : (s.complete).mem = s.mem := rfl
@[simp] theorem State.complete_resets (s : State) : (s.complete).resets = s.resets := rfl
@[simp] theorem State.complete_inputs (s : State) : (s.complete).inputs = s.inputs := rfl
@[simp] theorem State.complete_readData (s : State) : (s.complete).readData = s.readData := rfl
@[simp] theorem State.complete_handedOff (s : State) : (s.complete).handedOff = s.handedOff := rfl

/-! ## `setTx`: one TXBUF entry -/

@[simp] theorem State.setTx_params (s : State) (j : Nat) (v : BitVec 16) : (s.setTx j v).params = s.params := rfl
@[simp] theorem State.setTx_err (s : State) (j : Nat) (v : BitVec 16) : (s.setTx j v).err = s.err := rfl
@[simp] theorem State.setTx_nocons (s : State) (j : Nat) (v : BitVec 16) : (s.setTx j v).nocons = s.nocons := rfl
@[simp] theorem State.setTx_codeIn (s : State) (j : Nat) (v : BitVec 16) : (s.setTx j v).codeIn = s.codeIn := rfl
@[simp] theorem State.setTx_result (s : State) (j : Nat) (v : BitVec 16) : (s.setTx j v).result = s.result := rfl
@[simp] theorem State.setTx_bits (s : State) (j : Nat) (v : BitVec 16) : (s.setTx j v).bits = s.bits := rfl
@[simp] theorem State.setTx_start (s : State) (j : Nat) (v : BitVec 16) : (s.setTx j v).start = s.start := rfl
@[simp] theorem State.setTx_endIdx (s : State) (j : Nat) (v : BitVec 16) : (s.setTx j v).endIdx = s.endIdx := rfl
@[simp] theorem State.setTx_txLen (s : State) (j : Nat) (v : BitVec 16) : (s.setTx j v).txLen = s.txLen := rfl
@[simp] theorem State.setTx_rxLen (s : State) (j : Nat) (v : BitVec 16) : (s.setTx j v).rxLen = s.rxLen := rfl
@[simp] theorem State.setTx_tickUs (s : State) (j : Nat) (v : BitVec 16) : (s.setTx j v).tickUs = s.tickUs := rfl
@[simp] theorem State.setTx_unitUs (s : State) (j : Nat) (v : BitVec 16) : (s.setTx j v).unitUs = s.unitUs := rfl
@[simp] theorem State.setTx_cfg (s : State) (j : Nat) (v : BitVec 16) : (s.setTx j v).cfg = s.cfg := rfl
@[simp] theorem State.setTx_repCount (s : State) (j : Nat) (v : BitVec 16) : (s.setTx j v).repCount = s.repCount := rfl
@[simp] theorem State.setTx_rep0 (s : State) (j : Nat) (v : BitVec 16) : (s.setTx j v).rep0 = s.rep0 := rfl
@[simp] theorem State.setTx_rep1 (s : State) (j : Nat) (v : BitVec 16) : (s.setTx j v).rep1 = s.rep1 := rfl
@[simp] theorem State.setTx_rep2 (s : State) (j : Nat) (v : BitVec 16) : (s.setTx j v).rep2 = s.rep2 := rfl
@[simp] theorem State.setTx_mem (s : State) (j : Nat) (v : BitVec 16) : (s.setTx j v).mem = { s.mem with tx := setEntry s.mem.tx j v } := rfl
@[simp] theorem State.setTx_resets (s : State) (j : Nat) (v : BitVec 16) : (s.setTx j v).resets = s.resets := rfl
@[simp] theorem State.setTx_inputs (s : State) (j : Nat) (v : BitVec 16) : (s.setTx j v).inputs = s.inputs := rfl
@[simp] theorem State.setTx_readData (s : State) (j : Nat) (v : BitVec 16) : (s.setTx j v).readData = s.readData := rfl
@[simp] theorem State.setTx_handedOff (s : State) (j : Nat) (v : BitVec 16) : (s.setTx j v).handedOff = s.handedOff := rfl

/-! ## `setRx`: one RXBUF entry -/

@[simp] theorem State.setRx_params (s : State) (j : Nat) (v : BitVec 32) : (s.setRx j v).params = s.params := rfl
@[simp] theorem State.setRx_err (s : State) (j : Nat) (v : BitVec 32) : (s.setRx j v).err = s.err := rfl
@[simp] theorem State.setRx_nocons (s : State) (j : Nat) (v : BitVec 32) : (s.setRx j v).nocons = s.nocons := rfl
@[simp] theorem State.setRx_codeIn (s : State) (j : Nat) (v : BitVec 32) : (s.setRx j v).codeIn = s.codeIn := rfl
@[simp] theorem State.setRx_result (s : State) (j : Nat) (v : BitVec 32) : (s.setRx j v).result = s.result := rfl
@[simp] theorem State.setRx_bits (s : State) (j : Nat) (v : BitVec 32) : (s.setRx j v).bits = s.bits := rfl
@[simp] theorem State.setRx_start (s : State) (j : Nat) (v : BitVec 32) : (s.setRx j v).start = s.start := rfl
@[simp] theorem State.setRx_endIdx (s : State) (j : Nat) (v : BitVec 32) : (s.setRx j v).endIdx = s.endIdx := rfl
@[simp] theorem State.setRx_txLen (s : State) (j : Nat) (v : BitVec 32) : (s.setRx j v).txLen = s.txLen := rfl
@[simp] theorem State.setRx_rxLen (s : State) (j : Nat) (v : BitVec 32) : (s.setRx j v).rxLen = s.rxLen := rfl
@[simp] theorem State.setRx_tickUs (s : State) (j : Nat) (v : BitVec 32) : (s.setRx j v).tickUs = s.tickUs := rfl
@[simp] theorem State.setRx_unitUs (s : State) (j : Nat) (v : BitVec 32) : (s.setRx j v).unitUs = s.unitUs := rfl
@[simp] theorem State.setRx_cfg (s : State) (j : Nat) (v : BitVec 32) : (s.setRx j v).cfg = s.cfg := rfl
@[simp] theorem State.setRx_repCount (s : State) (j : Nat) (v : BitVec 32) : (s.setRx j v).repCount = s.repCount := rfl
@[simp] theorem State.setRx_rep0 (s : State) (j : Nat) (v : BitVec 32) : (s.setRx j v).rep0 = s.rep0 := rfl
@[simp] theorem State.setRx_rep1 (s : State) (j : Nat) (v : BitVec 32) : (s.setRx j v).rep1 = s.rep1 := rfl
@[simp] theorem State.setRx_rep2 (s : State) (j : Nat) (v : BitVec 32) : (s.setRx j v).rep2 = s.rep2 := rfl
@[simp] theorem State.setRx_mem (s : State) (j : Nat) (v : BitVec 32) : (s.setRx j v).mem = { s.mem with rx := setEntry s.mem.rx j v } := rfl
@[simp] theorem State.setRx_resets (s : State) (j : Nat) (v : BitVec 32) : (s.setRx j v).resets = s.resets := rfl
@[simp] theorem State.setRx_inputs (s : State) (j : Nat) (v : BitVec 32) : (s.setRx j v).inputs = s.inputs := rfl
@[simp] theorem State.setRx_readData (s : State) (j : Nat) (v : BitVec 32) : (s.setRx j v).readData = s.readData := rfl
@[simp] theorem State.setRx_handedOff (s : State) (j : Nat) (v : BitVec 32) : (s.setRx j v).handedOff = s.handedOff := rfl

/-! ## `storeTx`: a sequence into TXBUF -/

@[simp] theorem State.storeTx_params (s : State) (seq : List Nat) : (s.storeTx seq).params = s.params := rfl
@[simp] theorem State.storeTx_err (s : State) (seq : List Nat) : (s.storeTx seq).err = s.err := rfl
@[simp] theorem State.storeTx_nocons (s : State) (seq : List Nat) : (s.storeTx seq).nocons = s.nocons := rfl
@[simp] theorem State.storeTx_codeIn (s : State) (seq : List Nat) : (s.storeTx seq).codeIn = s.codeIn := rfl
@[simp] theorem State.storeTx_result (s : State) (seq : List Nat) : (s.storeTx seq).result = s.result := rfl
@[simp] theorem State.storeTx_bits (s : State) (seq : List Nat) : (s.storeTx seq).bits = s.bits := rfl
@[simp] theorem State.storeTx_start (s : State) (seq : List Nat) : (s.storeTx seq).start = s.start := rfl
@[simp] theorem State.storeTx_endIdx (s : State) (seq : List Nat) : (s.storeTx seq).endIdx = s.endIdx := rfl
@[simp] theorem State.storeTx_txLen (s : State) (seq : List Nat) : (s.storeTx seq).txLen = s.txLen := rfl
@[simp] theorem State.storeTx_rxLen (s : State) (seq : List Nat) : (s.storeTx seq).rxLen = s.rxLen := rfl
@[simp] theorem State.storeTx_tickUs (s : State) (seq : List Nat) : (s.storeTx seq).tickUs = s.tickUs := rfl
@[simp] theorem State.storeTx_unitUs (s : State) (seq : List Nat) : (s.storeTx seq).unitUs = s.unitUs := rfl
@[simp] theorem State.storeTx_cfg (s : State) (seq : List Nat) : (s.storeTx seq).cfg = s.cfg := rfl
@[simp] theorem State.storeTx_repCount (s : State) (seq : List Nat) : (s.storeTx seq).repCount = s.repCount := rfl
@[simp] theorem State.storeTx_rep0 (s : State) (seq : List Nat) : (s.storeTx seq).rep0 = s.rep0 := rfl
@[simp] theorem State.storeTx_rep1 (s : State) (seq : List Nat) : (s.storeTx seq).rep1 = s.rep1 := rfl
@[simp] theorem State.storeTx_rep2 (s : State) (seq : List Nat) : (s.storeTx seq).rep2 = s.rep2 := rfl
@[simp] theorem State.storeTx_mem (s : State) (seq : List Nat) : (s.storeTx seq).mem = { s.mem with tx := storeFromZero s.mem.tx (seq.map (BitVec.ofNat 16)) } := rfl
@[simp] theorem State.storeTx_resets (s : State) (seq : List Nat) : (s.storeTx seq).resets = s.resets := rfl
@[simp] theorem State.storeTx_inputs (s : State) (seq : List Nat) : (s.storeTx seq).inputs = s.inputs := rfl
@[simp] theorem State.storeTx_readData (s : State) (seq : List Nat) : (s.storeTx seq).readData = s.readData := rfl
@[simp] theorem State.storeTx_handedOff (s : State) (seq : List Nat) : (s.storeTx seq).handedOff = s.handedOff := rfl

/-! ## `storeRx`: a sequence into RXBUF -/

@[simp] theorem State.storeRx_params (s : State) (units : List Nat) : (s.storeRx units).params = s.params := rfl
@[simp] theorem State.storeRx_err (s : State) (units : List Nat) : (s.storeRx units).err = s.err := rfl
@[simp] theorem State.storeRx_nocons (s : State) (units : List Nat) : (s.storeRx units).nocons = s.nocons := rfl
@[simp] theorem State.storeRx_codeIn (s : State) (units : List Nat) : (s.storeRx units).codeIn = s.codeIn := rfl
@[simp] theorem State.storeRx_result (s : State) (units : List Nat) : (s.storeRx units).result = s.result := rfl
@[simp] theorem State.storeRx_bits (s : State) (units : List Nat) : (s.storeRx units).bits = s.bits := rfl
@[simp] theorem State.storeRx_start (s : State) (units : List Nat) : (s.storeRx units).start = s.start := rfl
@[simp] theorem State.storeRx_endIdx (s : State) (units : List Nat) : (s.storeRx units).endIdx = s.endIdx := rfl
@[simp] theorem State.storeRx_txLen (s : State) (units : List Nat) : (s.storeRx units).txLen = s.txLen := rfl
@[simp] theorem State.storeRx_rxLen (s : State) (units : List Nat) : (s.storeRx units).rxLen = s.rxLen := rfl
@[simp] theorem State.storeRx_tickUs (s : State) (units : List Nat) : (s.storeRx units).tickUs = s.tickUs := rfl
@[simp] theorem State.storeRx_unitUs (s : State) (units : List Nat) : (s.storeRx units).unitUs = s.unitUs := rfl
@[simp] theorem State.storeRx_cfg (s : State) (units : List Nat) : (s.storeRx units).cfg = s.cfg := rfl
@[simp] theorem State.storeRx_repCount (s : State) (units : List Nat) : (s.storeRx units).repCount = s.repCount := rfl
@[simp] theorem State.storeRx_rep0 (s : State) (units : List Nat) : (s.storeRx units).rep0 = s.rep0 := rfl
@[simp] theorem State.storeRx_rep1 (s : State) (units : List Nat) : (s.storeRx units).rep1 = s.rep1 := rfl
@[simp] theorem State.storeRx_rep2 (s : State) (units : List Nat) : (s.storeRx units).rep2 = s.rep2 := rfl
@[simp] theorem State.storeRx_mem (s : State) (units : List Nat) : (s.storeRx units).mem = { s.mem with rx := storeFromZero s.mem.rx (units.map (BitVec.ofNat 32)) } := rfl
@[simp] theorem State.storeRx_resets (s : State) (units : List Nat) : (s.storeRx units).resets = s.resets := rfl
@[simp] theorem State.storeRx_inputs (s : State) (units : List Nat) : (s.storeRx units).inputs = s.inputs := rfl
@[simp] theorem State.storeRx_readData (s : State) (units : List Nat) : (s.storeRx units).readData = s.readData := rfl
@[simp] theorem State.storeRx_handedOff (s : State) (units : List Nat) : (s.storeRx units).handedOff = s.handedOff := rfl

/-! ## `assertReset`: the reset input (R135) -/

@[simp] theorem State.assertReset_params (s : State) : (s.assertReset).params = s.params := rfl
@[simp] theorem State.assertReset_err (s : State) : (s.assertReset).err = State.reset.err := rfl
@[simp] theorem State.assertReset_nocons (s : State) : (s.assertReset).nocons = State.reset.nocons := rfl
@[simp] theorem State.assertReset_codeIn (s : State) : (s.assertReset).codeIn = State.reset.codeIn := rfl
@[simp] theorem State.assertReset_result (s : State) : (s.assertReset).result = State.reset.result := rfl
@[simp] theorem State.assertReset_bits (s : State) : (s.assertReset).bits = State.reset.bits := rfl
@[simp] theorem State.assertReset_start (s : State) : (s.assertReset).start = State.reset.start := rfl
@[simp] theorem State.assertReset_endIdx (s : State) : (s.assertReset).endIdx = State.reset.endIdx := rfl
@[simp] theorem State.assertReset_txLen (s : State) : (s.assertReset).txLen = State.reset.txLen := rfl
@[simp] theorem State.assertReset_rxLen (s : State) : (s.assertReset).rxLen = State.reset.rxLen := rfl
@[simp] theorem State.assertReset_tickUs (s : State) : (s.assertReset).tickUs = State.reset.tickUs := rfl
@[simp] theorem State.assertReset_unitUs (s : State) : (s.assertReset).unitUs = State.reset.unitUs := rfl
@[simp] theorem State.assertReset_cfg (s : State) : (s.assertReset).cfg = State.reset.cfg := rfl
@[simp] theorem State.assertReset_repCount (s : State) : (s.assertReset).repCount = State.reset.repCount := rfl
@[simp] theorem State.assertReset_rep0 (s : State) : (s.assertReset).rep0 = State.reset.rep0 := rfl
@[simp] theorem State.assertReset_rep1 (s : State) : (s.assertReset).rep1 = State.reset.rep1 := rfl
@[simp] theorem State.assertReset_rep2 (s : State) : (s.assertReset).rep2 = State.reset.rep2 := rfl
@[simp] theorem State.assertReset_mem (s : State) : (s.assertReset).mem = State.reset.mem := rfl
@[simp] theorem State.assertReset_resets (s : State) : (s.assertReset).resets = s.resets + 1 := rfl
@[simp] theorem State.assertReset_inputs (s : State) : (s.assertReset).inputs = s.inputs := rfl
@[simp] theorem State.assertReset_readData (s : State) : (s.assertReset).readData = s.readData := rfl
@[simp] theorem State.assertReset_handedOff (s : State) : (s.assertReset).handedOff = s.handedOff := rfl

/-! ## `withFetchWord`: a command word is about to be written -/

@[simp] theorem State.withFetchWord_params (s : State) (nbits w : Nat) : (s.withFetchWord nbits w).params = s.params := rfl
@[simp] theorem State.withFetchWord_err (s : State) (nbits w : Nat) : (s.withFetchWord nbits w).err = s.err := rfl
@[simp] theorem State.withFetchWord_nocons (s : State) (nbits w : Nat) : (s.withFetchWord nbits w).nocons = s.nocons := rfl
@[simp] theorem State.withFetchWord_codeIn (s : State) (nbits w : Nat) : (s.withFetchWord nbits w).codeIn = s.codeIn := rfl
@[simp] theorem State.withFetchWord_result (s : State) (nbits w : Nat) : (s.withFetchWord nbits w).result = s.result := rfl
@[simp] theorem State.withFetchWord_bits (s : State) (nbits w : Nat) : (s.withFetchWord nbits w).bits = s.bits := rfl
@[simp] theorem State.withFetchWord_start (s : State) (nbits w : Nat) : (s.withFetchWord nbits w).start = s.start := rfl
@[simp] theorem State.withFetchWord_endIdx (s : State) (nbits w : Nat) : (s.withFetchWord nbits w).endIdx = s.endIdx := rfl
@[simp] theorem State.withFetchWord_txLen (s : State) (nbits w : Nat) : (s.withFetchWord nbits w).txLen = s.txLen := rfl
@[simp] theorem State.withFetchWord_rxLen (s : State) (nbits w : Nat) : (s.withFetchWord nbits w).rxLen = s.rxLen := rfl
@[simp] theorem State.withFetchWord_tickUs (s : State) (nbits w : Nat) : (s.withFetchWord nbits w).tickUs = s.tickUs := rfl
@[simp] theorem State.withFetchWord_unitUs (s : State) (nbits w : Nat) : (s.withFetchWord nbits w).unitUs = s.unitUs := rfl
@[simp] theorem State.withFetchWord_cfg (s : State) (nbits w : Nat) : (s.withFetchWord nbits w).cfg = s.cfg := rfl
@[simp] theorem State.withFetchWord_repCount (s : State) (nbits w : Nat) : (s.withFetchWord nbits w).repCount = s.repCount := rfl
@[simp] theorem State.withFetchWord_rep0 (s : State) (nbits w : Nat) : (s.withFetchWord nbits w).rep0 = s.rep0 := rfl
@[simp] theorem State.withFetchWord_rep1 (s : State) (nbits w : Nat) : (s.withFetchWord nbits w).rep1 = s.rep1 := rfl
@[simp] theorem State.withFetchWord_rep2 (s : State) (nbits w : Nat) : (s.withFetchWord nbits w).rep2 = s.rep2 := rfl
@[simp] theorem State.withFetchWord_mem (s : State) (nbits w : Nat) : (s.withFetchWord nbits w).mem = s.mem := rfl
@[simp] theorem State.withFetchWord_resets (s : State) (nbits w : Nat) : (s.withFetchWord nbits w).resets = s.resets := rfl
@[simp] theorem State.withFetchWord_inputs (s : State) (nbits w : Nat) : (s.withFetchWord nbits w).inputs = commandMove s.params (BitVec.ofNat 32 (w % 2 ^ nbits)) :: s.inputs := rfl
@[simp] theorem State.withFetchWord_readData (s : State) (nbits w : Nat) : (s.withFetchWord nbits w).readData = s.readData := rfl
@[simp] theorem State.withFetchWord_handedOff (s : State) (nbits w : Nat) : (s.withFetchWord nbits w).handedOff = s.handedOff := rfl

end Sys2Proof.Machine
end

