-- ==== Sys2Proof/Laws/Commands.lean ====
section
/-! SUPPORT. What each command's body can do, said once: when it raises which error, and the state it
ends with where it does not. -/

namespace Sys2Proof.Machine

/-! ## The end of a command -/

/-- `finish` always gives a next state: an error is no stop (R123). -/
theorem finish_next (s : State) (body : Except ErrCode State) : ∃ t, finish s body = .next t := by
  cases body <;> exact ⟨_, rfl⟩

/-- What `finish` can give: the body's state with ERR 0, or the old state with the error. -/
theorem finish_cases {s t : State} {body : Except ErrCode State} (h : finish s body = .next t) :
    (∃ u, body = .ok u ∧ t = u.complete) ∨ (∃ e, body = .error e ∧ t = s.raise e) := by
  cases body with
  | ok u => exact .inl ⟨u, rfl, by cases h; rfl⟩
  | error e => exact .inr ⟨e, rfl, by cases h; rfl⟩

@[simp] theorem finish_ok (s u : State) : finish s (.ok u) = .next u.complete := rfl

@[simp] theorem finish_error (s : State) (e : ErrCode) : finish s (.error e) = .next (s.raise e) :=
  rfl

/-! ## Argument checks (R121) -/

theorem badCaptureArgs_iff (s : State) : s.badCaptureArgs = true ↔
    s.tickUs = 0 ∨ s.unitUs = 0 ∨ s.params.rxCap < s.rxLen.toNat := by
  simp [State.badCaptureArgs, or_assoc]

theorem badWindowArgs_iff (s : State) : s.badWindowArgs = true ↔
    s.params.rxCap < s.rxLen.toNat ∨ s.rxLen.toNat < s.endIdx.toNat := by
  simp [State.badWindowArgs]

theorem badEncodeArgs_iff (s : State) : s.badEncodeArgs = true ↔
    64 < s.bits.toNat ∨ s.params.txCap < s.txLen.toNat := by
  simp [State.badEncodeArgs]

/-! ## The bodies -/

/-- MENC (R95): BAD_ARG, the encoder's error, TX_OVERFLOW, or the stored sequence. -/
theorem mencBody_cases (s : State) :
    (s.badEncodeArgs = true ∧ mencBody s = .error .badArg)
    ∨ (s.badEncodeArgs = false ∧
        ((∃ e, encodeBits s.codeIn s.bits.toNat (s.txSeq s.txLen.toNat) = .error e
            ∧ mencBody s = .error e)
        ∨ ∃ seq, encodeBits s.codeIn s.bits.toNat (s.txSeq s.txLen.toNat) = .ok seq ∧
            ((txOverflows s.params.txCap seq = true ∧ mencBody s = .error .txOverflow)
            ∨ (txOverflows s.params.txCap seq = false
                ∧ mencBody s
                  = .ok { s.storeTx seq with txLen := BitVec.ofNat 16 seq.length })))) := by
  unfold mencBody
  cases s.badEncodeArgs with
  | true => exact .inl ⟨rfl, rfl⟩
  | false =>
    refine .inr ⟨rfl, ?_⟩
    cases encodeBits s.codeIn s.bits.toNat (s.txSeq s.txLen.toNat) with
    | error e => exact .inl ⟨e, rfl, rfl⟩
    | ok seq =>
      refine .inr ⟨seq, rfl, ?_⟩
      simp only [Bind.bind, Except.bind]
      cases txOverflows s.params.txCap seq with
      | true => exact .inl ⟨rfl, rfl⟩
      | false => exact .inr ⟨rfl, rfl⟩

/-- FRENC (R100) never raises an error. -/
theorem frencBody_eq (n : Bool) (s : State) :
    ∃ seq, frame (pack s.cfg n) = .ok seq ∧ frencBody n s
      = .ok { s.storeTx seq with
              txLen := BitVec.ofNat 16 seq.length, result := pack s.cfg n } := by
  refine ⟨_, frame_eq _, ?_⟩
  simp only [frencBody, frame_eq]
  rfl

/-- NORM (R106): BAD_ARG, or the capture in units. -/
theorem normBody_cases (s : State) :
    (s.badCaptureArgs = true ∧ normBody s = .error .badArg)
    ∨ (s.badCaptureArgs = false ∧ normBody s = .ok (s.storeRx s.normalised)) := by
  unfold normBody
  cases s.badCaptureArgs <;> simp

/-- MDEC (R107): BAD_ARG, or the decoded window. -/
theorem mdecBody_cases (s : State) :
    (s.badWindowArgs = true ∧ mdecBody s = .error .badArg)
    ∨ (s.badWindowArgs = false ∧ ∃ res u,
        mdecFn (s.rxSeq s.endIdx.toNat) s.start.toNat s.endIdx.toNat = (res, u)
        ∧ mdecBody s = .ok { s.storeRx u with result := res }) := by
  unfold mdecBody
  cases s.badWindowArgs with
  | true => exact .inl ⟨rfl, rfl⟩
  | false => exact .inr ⟨rfl, _, _, rfl, rfl⟩

/-- FRDEC (R113): BAD_ARG, or the decoded frame. -/
theorem frdecBody_cases (s : State) :
    (s.badCaptureArgs = true ∧ frdecBody s = .error .badArg)
    ∨ (s.badCaptureArgs = false ∧ ∃ f, frameDec s.normalised s.rxLen.toNat = f
        ∧ frdecBody s = .ok { s.storeRx f.units with
            rep0 := f.rep0, rep1 := f.rep1, rep2 := f.rep2
            repCount := BitVec.ofNat 2 f.count
            result := f.res, nocons := noConsensus f.res }) := by
  unfold frdecBody
  cases s.badCaptureArgs with
  | true => exact .inl ⟨rfl, rfl⟩
  | false => exact .inr ⟨rfl, _, rfl, rfl⟩

/-- RX (R115): FRDEC's error, or its state with CFG unpacked unless the result is 0. -/
theorem rxBody_cases (s : State) :
    (∃ e, frdecBody s = .error e ∧ rxBody s = .error e)
    ∨ (∃ t, frdecBody s = .ok t ∧ rxBody s
        = .ok (if t.result = 0 then t else { t with cfg := unpackApply t.cfg t.result })) := by
  unfold rxBody
  cases frdecBody s with
  | error e => exact .inl ⟨e, rfl, rfl⟩
  | ok t => exact .inr ⟨t, rfl, rfl⟩

@[simp] theorem State.length_normalised (s : State) : s.normalised.length = s.rxLen.toNat := by
  simp [State.normalised, State.rxSeq]

/-! ## The frame scan (R108, R110) -/

/-- What a boundary is (R108): ordinary, merged, or none. -/
theorem boundaryAt_cases (u : List Nat) (k : Nat) :
    (k % 2 = 0 ∧ u.getD k 0 = 3 ∧ u.getD (k + 1) 0 = 3 ∧ boundaryAt u k = some (k + 2, u))
    ∨ (k % 2 = 0 ∧ u.getD k 0 = 3 ∧ u.getD (k + 1) 0 = 4
        ∧ boundaryAt u k = some (k + 1, u.set (k + 1) 1))
    ∨ (¬ (k % 2 = 0 ∧ u.getD k 0 = 3 ∧ (u.getD (k + 1) 0 = 3 ∨ u.getD (k + 1) 0 = 4))
        ∧ boundaryAt u k = none) := by
  unfold boundaryAt
  by_cases h₁ : k % 2 = 0 ∧ u.getD k 0 = 3 ∧ u.getD (k + 1) 0 = 3
  · exact .inl ⟨h₁.1, h₁.2.1, h₁.2.2, if_pos h₁⟩
  · by_cases h₂ : k % 2 = 0 ∧ u.getD k 0 = 3 ∧ u.getD (k + 1) 0 = 4
    · exact .inr (.inl ⟨h₂.1, h₂.2.1, h₂.2.2, by rw [if_neg h₁, if_pos h₂, h₂.2.2]⟩)
    · refine .inr (.inr ⟨?_, by rw [if_neg h₁, if_neg h₂]⟩)
      rintro ⟨a, b, c | c⟩
      · exact h₁ ⟨a, b, c⟩
      · exact h₂ ⟨a, b, c⟩

/-- The scan keeps the number of entries, finds at most three repetitions, and leaves every entry at or
beyond its window alone. -/
theorem scanLoop_keeps (n fuel k : Nat) (reps : List Code) (u : List Nat) (h : reps.length ≤ 3) :
    (scanLoop n fuel k reps u).2.length = u.length
    ∧ (scanLoop n fuel k reps u).1.length ≤ 3
    ∧ ∀ j, n ≤ j → (scanLoop n fuel k reps u).2[j]? = u[j]? := by
  induction fuel generalizing k reps u with
  | zero => exact ⟨rfl, h, fun _ _ => rfl⟩
  | succ fuel ih =>
    simp only [scanLoop]
    split
    · rename_i hc
      rcases boundaryAt_cases u k with ⟨-, -, -, hb⟩ | ⟨-, -, -, hb⟩ | ⟨-, hb⟩ <;> rw [hb]
      · obtain ⟨h₁, h₂, h₃⟩ := ih (k + 2) (reps ++ [(mdecFn u (k + 2) n).1])
          (mdecFn u (k + 2) n).2 (by simp; omega)
        exact ⟨by rw [h₁]; simp, h₂, fun j hj => by rw [h₃ j hj, mdecFn_outside _ _ _ _ (.inr hj)]⟩
      · obtain ⟨h₁, h₂, h₃⟩ := ih (k + 2) (reps ++ [(mdecFn (u.set (k + 1) 1) (k + 1) n).1])
          (mdecFn (u.set (k + 1) 1) (k + 1) n).2 (by simp; omega)
        refine ⟨by rw [h₁]; simp, h₂, fun j hj => ?_⟩
        rw [h₃ j hj, mdecFn_outside _ _ _ _ (.inr hj), List.getElem?_set_ne (by omega)]
      · exact ih _ _ _ h
    · exact ⟨rfl, h, fun _ _ => rfl⟩

/-- R110: "Every pass through the loop increases k by at least 1", so more fuel changes nothing. -/
theorem scanLoop_fuel (n fuel extra k : Nat) (reps : List Code) (u : List Nat)
    (h : n ≤ k + fuel) :
    scanLoop n (fuel + extra) k reps u = scanLoop n fuel k reps u := by
  induction fuel generalizing k reps u with
  | zero =>
    cases extra with
    | zero => rfl
    | succ e => simp only [scanLoop, if_neg (show ¬ (reps.length < 3 ∧ k + 1 < n) by omega)]
  | succ fuel ih =>
    rw [Nat.succ_add]
    simp only [scanLoop]
    split
    · cases boundaryAt u k with
      | none => exact ih _ _ _ (by omega)
      | some su => exact ih _ _ _ (by omega)
    · rfl

theorem frameDec_units_length (u : List Nat) (n : Nat) : (frameDec u n).units.length = u.length :=
  (scanLoop_keeps n n 0 [] u (by simp)).1

theorem frameDec_count (u : List Nat) (n : Nat) : (frameDec u n).count ≤ 3 :=
  (scanLoop_keeps n n 0 [] u (by simp)).2.1

end Sys2Proof.Machine
end

