-- ==== Sys2Proof/Laws/Host.lean ====
section
/-! SUPPORT. The host interface: the three outcomes of an access, the buffer windows of the map, the
transmit line, and what the duties give a command. -/

namespace Sys2Proof.Machine

/-- What a host access can be: refused, outside the space, or done at its register (R48, R52). -/
theorem hostAccess_cases (s : State) (addr size : Nat)
    (access : Reg → Host.Outcome State Fault Refusal) :
    (¬ (size = 4 ∧ addr % 4 = 0) ∧ hostAccess s addr size access = .refused .accessNotAdmitted)
    ∨ ((size = 4 ∧ addr % 4 = 0)
        ∧ ¬ (s.params.eccBase ≤ addr ∧ addr < s.params.eccBase + 0x10000)
        ∧ hostAccess s addr size access = .fault .outsideRegisterSpace)
    ∨ ((size = 4 ∧ addr % 4 = 0)
        ∧ (s.params.eccBase ≤ addr ∧ addr < s.params.eccBase + 0x10000)
        ∧ hostAccess s addr size access
          = access (regAt s.params (addr - s.params.eccBase))) := by
  unfold hostAccess accessAdmitted inRegisterSpace
  by_cases h₁ : size = 4 ∧ addr % 4 = 0
  · by_cases h₂ : s.params.eccBase ≤ addr ∧ addr < s.params.eccBase + 0x10000
    · exact .inr (.inr ⟨h₁, h₂, by simp [h₁, h₂]⟩)
    · refine .inr (.inl ⟨h₁, h₂, ?_⟩)
      rw [if_neg (by simp [h₁]), if_pos (by simpa using h₂)]
  · refine .inl ⟨h₁, if_pos ?_⟩
    simpa using h₁

/-- TXBUF's window (R43, R49). -/
theorem regAt_tx (p : Config.Params) (j : Nat) (h : j < p.txCap) :
    regAt p (0x1000 + 4 * j) = .tx j := by
  unfold regAt
  rw [if_pos (by omega)]
  congr 1
  omega

/-- RXBUF's window (R44, R49), which TXBUF's never reaches (R6). -/
theorem regAt_rx (p : Config.Params) (j : Nat) (hp : p.Valid) (h : j < p.rxCap) :
    regAt p (0x2000 + 4 * j) = .rx j := by
  have := hp.2.1
  unfold regAt
  rw [if_neg (by omega), if_pos (by omega)]
  congr 1
  omega

/-- A written half of a 64-bit register reads back, and the other half stays (R53). -/
theorem loWord_setLoWord (c : Code) (v : Word) : loWord (setLoWord c v) = v := by
  unfold loWord setLoWord hiWord
  ext i hi
  have := BitVec.getLsbD_append (x := BitVec.extractLsb' 32 32 c) (y := v) (i := i)
  simp_all

theorem hiWord_setHiWord (c : Code) (v : Word) : hiWord (setHiWord c v) = v := by
  unfold hiWord setHiWord loWord
  ext i hi
  have := BitVec.getLsbD_append (x := v) (y := BitVec.extractLsb' 0 32 c) (i := 32 + i)
  simp_all [show ¬ 32 + i < 32 by omega]

theorem hiWord_setLoWord (c : Code) (v : Word) : hiWord (setLoWord c v) = hiWord c := by
  unfold hiWord setLoWord hiWord
  ext i hi
  have := BitVec.getLsbD_append (x := BitVec.extractLsb' 32 32 c) (y := v) (i := 32 + i)
  simp_all

theorem loWord_setHiWord (c : Code) (v : Word) : loWord (setHiWord c v) = loWord c := by
  unfold loWord setHiWord loWord
  ext i hi
  have := BitVec.getLsbD_append (x := v) (y := BitVec.extractLsb' 0 32 c) (i := i)
  simp_all

/-! ## The transmit line (R128) -/

/-- How long a list of pulses lasts. -/
def totalMicros (ps : List Pulse) : Nat := (ps.map Pulse.micros).sum

@[simp] theorem totalMicros_nil : totalMicros [] = 0 := rfl

@[simp] theorem totalMicros_cons (p : Pulse) (ps : List Pulse) :
    totalMicros (p :: ps) = p.micros + totalMicros ps := by simp [totalMicros]

/-- Once the first pulses are over the line follows the rest. -/
theorem lineLevel_append (ps qs : List Pulse) (t : Nat) (h : totalMicros ps ≤ t) :
    lineLevel (ps ++ qs) t = lineLevel qs (t - totalMicros ps) := by
  induction ps generalizing t with
  | nil => rfl
  | cons p ps ih =>
    rw [totalMicros_cons] at h
    rw [List.cons_append, lineLevel, if_neg (by omega), ih _ (by omega), totalMicros_cons,
      Nat.sub_sub]

/-- After the last pulse the line is idle. -/
theorem lineLevel_idle (ps : List Pulse) (t : Nat) (h : totalMicros ps ≤ t) :
    lineLevel ps t = .space := by
  simpa [lineLevel] using lineLevel_append ps [] t h

end Sys2Proof.Machine

namespace Sys2Proof.Safety

open Sys2Proof.Machine

/-- What the duties give the command a move issues (R61, R131, R136). -/
theorem hostMay_command {mon : Monitor} {s : State} {m : Input} {i : Instr}
    (h : hostMay mon s m = true) (hi : issuedCommand s.params m = some i) :
    moveAdmitted s.params m = true
    ∧ (mon.transmitting = true → writesTransmitBuffer i = false)
    ∧ (readsCapture i = true → captureLoaded mon s = true)
    ∧ (usesTick i = true → s.tickUs ≠ 0)
    ∧ (usesCfg i = true → mon.cfgLoaded = true)
    ∧ encodesInRange s.cfg i = true := by
  simp only [hostMay, commandAllowed, touchesTransmit, hi, Option.all_some, Option.any_some,
    Bool.and_eq_true, Bool.or_eq_true, Bool.not_eq_true', bne_iff_ne, Bool.and_eq_false_iff,
    Bool.or_eq_false_iff] at h
  obtain ⟨⟨⟨hm, ht⟩, -⟩, ⟨⟨hc, hk⟩, hg⟩, hr⟩ := h
  refine ⟨hm, fun e => ?_, fun e => ?_, fun e => ?_, fun e => ?_, hr⟩ <;> simp_all

/-- A loaded capture is no longer than RXBUF (R44). -/
theorem captureLoaded_fits {mon : Monitor} {s : State} (h : captureLoaded mon s = true) :
    s.rxLen.toNat ≤ s.params.rxCap := by
  simp only [captureLoaded, Bool.and_eq_true, decide_eq_true_eq] at h
  exact h.1

/-- A move that issues a command is the word of that command written to CMD (R16, R66). -/
theorem issuedCommand_eq {p : Config.Params} {m : Input} {i : Instr}
    (h : issuedCommand p m = some i) :
    ∃ addr size w, m = .write addr size w ∧ accessAdmitted addr size = true
      ∧ inRegisterSpace p addr = true ∧ regAt p (addr - p.eccBase) = .cmd
      ∧ decode w = .ok i := by
  cases m with
  | write addr size w =>
    simp only [issuedCommand, writtenReg] at h
    by_cases hb : (accessAdmitted addr size && inRegisterSpace p addr) = true
    · rw [if_pos hb] at h
      simp only [Bool.and_eq_true] at hb
      generalize hr : regAt p (addr - p.eccBase) = r at h
      cases r <;> simp_all
      cases hd : decode w <;> simp_all [Except.toOption]
    · rw [if_neg hb] at h
      simp at h
  | _ => simp [issuedCommand, writtenReg] at h

end Sys2Proof.Safety
end

