-- ==== Sys2Proof/Laws/Memory.lean ====
section
/-! SUPPORT. The buffers: a read after a write, every other entry unchanged, the canonical form kept
by every memory operation, and the buffers as sequences. -/

namespace Sys2Proof.Machine

variable {w : Nat} {free : Nat → BitVec w} {cap lo : Nat}

/-! ## Reads after writes -/

theorem entryAt_setEntry (e : Entries w) (j k : Nat) (v : BitVec w) :
    entryAt free (setEntry e j v) k = if k = j then v else entryAt free e k := by
  induction e with
  | nil => by_cases h : j = k <;> simp [setEntry, entryAt, h, Ne.symm]
  | cons hd rest ih =>
    obtain ⟨i, u⟩ := hd
    by_cases hkj : k = j
    · subst hkj
      simp only [setEntry, ite_true]
      split
      · simp [entryAt]
      · split
        · simp [entryAt]
        · rw [entryAt, if_neg (by omega), ih, if_pos rfl]
    · simp only [setEntry, if_neg hkj]
      split
      · simp [entryAt, Ne.symm hkj]
      · split
        · subst_vars
          simp [entryAt, Ne.symm hkj]
        · simp only [entryAt, ih, if_neg hkj]

theorem entryAt_entriesFrom_append (vs : List (BitVec w)) (e : Entries w) (i j : Nat) :
    entryAt free (entriesFrom i vs ++ e) j
      = if h : i ≤ j ∧ j - i < vs.length then vs[j - i] else entryAt free e j := by
  induction vs generalizing i with
  | nil => simp [entriesFrom]
  | cons v vs ih =>
    simp only [entriesFrom, List.cons_append, entryAt, ih, List.length_cons]
    by_cases hij : i = j
    · simp [hij]
    · by_cases hlt : i < j
      · have hsub : j - i = j - (i + 1) + 1 := by omega
        by_cases hin : j - (i + 1) < vs.length
        · rw [dif_pos ⟨by omega, hin⟩, dif_pos ⟨by omega, by omega⟩, if_neg hij]
          simp [hsub]
        · rw [dif_neg (by omega), dif_neg (by omega), if_neg hij]
      · rw [dif_neg (by omega), dif_neg (by omega), if_neg hij]

theorem entryAt_filter (e : Entries w) (n j : Nat) (h : n ≤ j) :
    entryAt free (e.filter fun kv => decide (n ≤ kv.1)) j = entryAt free e j := by
  induction e with
  | nil => rfl
  | cons hd rest ih =>
    obtain ⟨i, u⟩ := hd
    by_cases hi : n ≤ i
    · simp [hi, entryAt, ih]
    · simp only [List.filter_cons, hi, decide_false, Bool.false_eq_true, ite_false, entryAt, ih]
      rw [if_neg (by omega)]

/-- Storing a sequence writes exactly the entries below its length. -/
theorem entryAt_storeFromZero (e : Entries w) (vs : List (BitVec w)) (j : Nat) :
    entryAt free (storeFromZero e vs) j
      = if h : j < vs.length then vs[j] else entryAt free e j := by
  unfold storeFromZero
  rw [entryAt_entriesFrom_append]
  by_cases h : j < vs.length
  · simp [h]
  · rw [dif_neg (by omega), dif_neg h, entryAt_filter _ _ _ (by omega)]

theorem State.txAt_setTx (s : State) (j k : Nat) (v : BitVec 16) :
    (s.setTx j v).txAt k = if k = j then v else s.txAt k := entryAt_setEntry ..

theorem State.rxAt_setRx (s : State) (j k : Nat) (v : BitVec 32) :
    (s.setRx j v).rxAt k = if k = j then v else s.rxAt k := entryAt_setEntry ..

theorem State.txAt_storeTx (s : State) (seq : List Nat) (j : Nat) :
    (s.storeTx seq).txAt j
      = if h : j < seq.length then BitVec.ofNat 16 seq[j] else s.txAt j := by
  unfold State.txAt State.storeTx
  rw [entryAt_storeFromZero]
  simp

theorem State.rxAt_storeRx (s : State) (units : List Nat) (j : Nat) :
    (s.storeRx units).rxAt j
      = if h : j < units.length then BitVec.ofNat 32 units[j] else s.rxAt j := by
  unfold State.rxAt State.storeRx
  rw [entryAt_storeFromZero]
  simp

/-- An entry reads the same in two states with the same TXBUF and reset count. -/
theorem State.txAt_congr {s t : State} (hm : t.mem.tx = s.mem.tx) (hr : t.resets = s.resets)
    (j : Nat) : t.txAt j = s.txAt j := by simp [State.txAt, hm, hr]

/-- An entry reads the same in two states with the same RXBUF and reset count. -/
theorem State.rxAt_congr {s t : State} (hm : t.mem.rx = s.mem.rx) (hr : t.resets = s.resets)
    (j : Nat) : t.rxAt j = s.rxAt j := by simp [State.rxAt, hm, hr]

/-! ## The canonical form -/

theorem entriesRise_mono (e : Entries w) {lo' : Nat} (h : lo' ≤ lo)
    (he : entriesRise cap lo e = true) : entriesRise cap lo' e = true := by
  cases e with
  | nil => rfl
  | cons hd rest =>
    obtain ⟨i, u⟩ := hd
    simp only [entriesRise, Bool.and_eq_true, decide_eq_true_eq] at he ⊢
    exact ⟨⟨by omega, he.1.2⟩, he.2⟩

theorem entriesRise_setEntry (e : Entries w) (j : Nat) (v : BitVec w) (hlo : lo ≤ j)
    (hcap : j < cap) (he : entriesRise cap lo e = true) :
    entriesRise cap lo (setEntry e j v) = true := by
  induction e generalizing lo with
  | nil => simp [setEntry, entriesRise, hlo, hcap]
  | cons hd rest ih =>
    obtain ⟨i, u⟩ := hd
    simp only [entriesRise, Bool.and_eq_true, decide_eq_true_eq] at he
    simp only [setEntry]
    split
    · simp only [entriesRise, Bool.and_eq_true, decide_eq_true_eq]
      exact ⟨⟨hlo, hcap⟩, ⟨by omega, he.1.2⟩, he.2⟩
    · split
      · subst_vars
        simp only [entriesRise, Bool.and_eq_true, decide_eq_true_eq]
        exact ⟨⟨hlo, hcap⟩, he.2⟩
      · simp only [entriesRise, Bool.and_eq_true, decide_eq_true_eq]
        exact ⟨he.1, ih (by omega) he.2⟩

theorem entriesRise_filter (e : Entries w) (n : Nat) (he : entriesRise cap lo e = true) :
    entriesRise cap (max lo n) (e.filter fun kv => decide (n ≤ kv.1)) = true := by
  induction e generalizing lo with
  | nil => rfl
  | cons hd rest ih =>
    obtain ⟨i, u⟩ := hd
    simp only [entriesRise, Bool.and_eq_true, decide_eq_true_eq] at he
    have hrest := ih he.2
    by_cases hi : n ≤ i
    · simp only [List.filter_cons, hi, decide_true, ite_true, entriesRise, Bool.and_eq_true,
        decide_eq_true_eq]
      exact ⟨⟨by omega, he.1.2⟩, entriesRise_mono _ (by omega) hrest⟩
    · simp only [List.filter_cons, hi, decide_false, Bool.false_eq_true, ite_false]
      exact entriesRise_mono _ (by omega) hrest

theorem entriesRise_entriesFrom_append (vs : List (BitVec w)) (e : Entries w) (i : Nat)
    (hcap : i + vs.length ≤ cap) (he : entriesRise cap (i + vs.length) e = true) :
    entriesRise cap i (entriesFrom i vs ++ e) = true := by
  induction vs generalizing i with
  | nil => simpa [entriesFrom] using he
  | cons v vs ih =>
    simp only [List.length_cons] at hcap he
    simp only [entriesFrom, List.cons_append, entriesRise, Bool.and_eq_true, decide_eq_true_eq]
    refine ⟨⟨Nat.le_refl _, by omega⟩, ih (i + 1) (by omega) ?_⟩
    have : i + 1 + vs.length = i + (vs.length + 1) := by omega
    rw [this]
    exact he

theorem entriesRise_storeFromZero (e : Entries w) (vs : List (BitVec w)) (hcap : vs.length ≤ cap)
    (he : entriesRise cap 0 e = true) : entriesRise cap 0 (storeFromZero e vs) = true := by
  refine entriesRise_entriesFrom_append _ _ _ (by omega) ?_
  have := entriesRise_filter e vs.length he
  simpa using this

/-- A write of one TXBUF entry below the capacity keeps the form. -/
theorem wf_setTx {s : State} {p : Config.Params} {j : Nat} (v : BitVec 16) (hj : j < p.txCap)
    (h : s.mem.wf p = true) : (s.setTx j v).mem.wf p = true := by
  simp only [Memory.wf, Bool.and_eq_true] at h ⊢
  exact ⟨entriesRise_setEntry _ _ _ (Nat.zero_le _) hj h.1, h.2⟩

/-- A write of one RXBUF entry below the capacity keeps the form. -/
theorem wf_setRx {s : State} {p : Config.Params} {j : Nat} (v : BitVec 32) (hj : j < p.rxCap)
    (h : s.mem.wf p = true) : (s.setRx j v).mem.wf p = true := by
  simp only [Memory.wf, Bool.and_eq_true] at h ⊢
  exact ⟨h.1, entriesRise_setEntry _ _ _ (Nat.zero_le _) hj h.2⟩

/-- Storing a sequence that fits into TXBUF keeps the form. -/
theorem wf_storeTx {s : State} {p : Config.Params} {seq : List Nat} (hl : seq.length ≤ p.txCap)
    (h : s.mem.wf p = true) : (s.storeTx seq).mem.wf p = true := by
  simp only [Memory.wf, Bool.and_eq_true] at h ⊢
  exact ⟨entriesRise_storeFromZero _ _ (by simpa using hl) h.1, h.2⟩

/-- Storing a sequence that fits into RXBUF keeps the form. -/
theorem wf_storeRx {s : State} {p : Config.Params} {units : List Nat}
    (hl : units.length ≤ p.rxCap) (h : s.mem.wf p = true) :
    (s.storeRx units).mem.wf p = true := by
  simp only [Memory.wf, Bool.and_eq_true] at h ⊢
  exact ⟨h.1, entriesRise_storeFromZero _ _ (by simpa using hl) h.2⟩

/-- Memory with nothing listed has the form. -/
theorem wf_empty (p : Config.Params) : Memory.wf p { tx := [], rx := [] } = true := rfl

/-! ## The buffers as sequences -/

@[simp] theorem State.length_txSeq (s : State) (n : Nat) : (s.txSeq n).length = n := by
  simp [State.txSeq]

@[simp] theorem State.length_rxSeq (s : State) (n : Nat) : (s.rxSeq n).length = n := by
  simp [State.rxSeq]

theorem State.getElem_txSeq (s : State) (n j : Nat) (h : j < (s.txSeq n).length) :
    (s.txSeq n)[j] = (s.txAt j).toNat := by simp [State.txSeq]

theorem State.getElem_rxSeq (s : State) (n j : Nat) (h : j < (s.rxSeq n).length) :
    (s.rxSeq n)[j] = (s.rxAt j).toNat := by simp [State.rxSeq]

theorem State.txSeq_congr {s t : State} {n : Nat} (h : ∀ j, j < n → t.txAt j = s.txAt j) :
    t.txSeq n = s.txSeq n := by
  refine List.ext_getElem (by simp) fun j h₁ h₂ => ?_
  rw [State.getElem_txSeq, State.getElem_txSeq, h j (by simpa using h₁)]

theorem State.rxSeq_congr {s t : State} {n : Nat} (h : ∀ j, j < n → t.rxAt j = s.rxAt j) :
    t.rxSeq n = s.rxSeq n := by
  refine List.ext_getElem (by simp) fun j h₁ h₂ => ?_
  rw [State.getElem_rxSeq, State.getElem_rxSeq, h j (by simpa using h₁)]

/-- What is stored reads back as the sequence, when every entry fits 16 bits. -/
theorem State.txSeq_storeTx (s : State) (seq : List Nat) (h : ∀ d ∈ seq, d < 2 ^ 16) :
    (s.storeTx seq).txSeq seq.length = seq := by
  refine List.ext_getElem (by simp) fun j h₁ h₂ => ?_
  rw [State.getElem_txSeq, State.txAt_storeTx, dif_pos h₂, BitVec.toNat_ofNat,
    Nat.mod_eq_of_lt (h _ (List.getElem_mem h₂))]

/-- What is stored reads back as the sequence, when every entry fits 32 bits. -/
theorem State.rxSeq_storeRx (s : State) (units : List Nat) (h : ∀ d ∈ units, d < 2 ^ 32) :
    (s.storeRx units).rxSeq units.length = units := by
  refine List.ext_getElem (by simp) fun j h₁ h₂ => ?_
  rw [State.getElem_rxSeq, State.rxAt_storeRx, dif_pos h₂, BitVec.toNat_ofNat,
    Nat.mod_eq_of_lt (h _ (List.getElem_mem h₂))]

end Sys2Proof.Machine
end

