-- ==== Sys2Proof/Laws/PerInstr.lean ====
section
/-! SUPPORT. Facts about every command as syntax, one lemma per constructor. Family Encoding: a
command's word has legal fields, the decoder reads it back, and the table's numbering gives it too. -/

namespace Sys2Proof.Laws.Encoding

/-- The word of a command has legal fields (R68) and decodes to it (R66), also through the opcode
table's numbering (R65). -/
def Statement (i : Instr) : Prop :=
  i.wf = true ∧ (fieldsOfWord (encode i)).wf = true ∧ fieldsOfWord (encode i) = fieldsOfInstr i
    ∧ decode (encode i) = .ok i ∧ decodeTableWord 32 (encode i).toNat = some i

theorem nop : Statement .nop := ⟨by decide, by decide, by decide, rfl, by decide⟩
theorem fenc : Statement .fenc := ⟨by decide, by decide, by decide, rfl, by decide⟩
theorem fencN : Statement .fencN := ⟨by decide, by decide, by decide, rfl, by decide⟩
theorem fdec : Statement .fdec := ⟨by decide, by decide, by decide, rfl, by decide⟩
theorem menc : Statement .menc := ⟨by decide, by decide, by decide, rfl, by decide⟩
theorem frenc : Statement .frenc := ⟨by decide, by decide, by decide, rfl, by decide⟩
theorem frencN : Statement .frencN := ⟨by decide, by decide, by decide, rfl, by decide⟩
theorem norm : Statement .norm := ⟨by decide, by decide, by decide, rfl, by decide⟩
theorem mdec : Statement .mdec := ⟨by decide, by decide, by decide, rfl, by decide⟩
theorem frdec : Statement .frdec := ⟨by decide, by decide, by decide, rfl, by decide⟩
theorem vote : Statement .vote := ⟨by decide, by decide, by decide, rfl, by decide⟩
theorem rx : Statement .rx := ⟨by decide, by decide, by decide, rfl, by decide⟩

end Sys2Proof.Laws.Encoding
end

