-- ==== Sys2Proof/Tests/Slice0.lean ====
section
/-! SUPPORT. Small tests: the well-formedness checks, the command words written out from the spec, one
step per command on vectors of 95_test_vectors.md, and a witness for the hypotheses of each
statement. -/

namespace Sys2Proof.Tests

open Sys2Proof.Machine Sys2Proof.Spec Sys2Proof.Safety

/-! ## Helpers -/

/-- The state of an outcome, if it is a next state. -/
def stateOf (o : Host.Outcome State Fault Refusal) : State :=
  match o with
  | .next t => t
  | .fault _ | .refused _ => State.reset

/-- Whether an outcome is a next state. -/
def isNext (o : Host.Outcome State Fault Refusal) : Bool :=
  match o with
  | .next _ => true
  | .fault _ | .refused _ => false

theorem eq_next (o : Host.Outcome State Fault Refusal) (h : isNext o = true) :
    o = .next (stateOf o) := by
  cases o <;> simp_all [isNext, stateOf]

/-- The reset state with a capture in RXBUF, in ticks of `tick` microseconds. -/
def withRx (units : List Nat) (tick : BitVec 16) : State :=
  { State.reset.storeRx units with rxLen := BitVec.ofNat 16 units.length, tickUs := tick }

/-- The reset state with a sequence in TXBUF and MENC's operands. -/
def withTx (seq : List Nat) (code : Code) (bits : BitVec 7) : State :=
  { State.reset.storeTx seq with
    txLen := BitVec.ofNat 16 seq.length, codeIn := code, bits := bits }

/-- The reset state with a CFG word (R29). -/
def withCfg (w : Word) : State := { State.reset with cfg := cfgOfWord w }

/-- The value of an encoder's result. -/
def okSeq (e : Except ErrCode (List Nat)) : List Nat :=
  match e with
  | .ok seq => seq
  | .error _ => []

/-- The state after a command. -/
def after (i : Instr) (s : State) : State := stateOf (exec i s)

/-! ## The well-formedness checks refuse ill-formed terms -/

theorem test_reserved_bit_ill_formed :
    CommandFields.wf { op := 0x0, n := false, rsv := 1 } = false := by decide
theorem test_reserved_opcode_ill_formed :
    CommandFields.wf { op := 0xA, n := false, rsv := 0 } = false := by decide
theorem test_notify_on_fdec_ill_formed :
    CommandFields.wf { op := 0x2, n := true, rsv := 0 } = false := by decide
theorem test_fenc_n_well_formed :
    CommandFields.wf { op := 0x1, n := true, rsv := 0 } = true := by decide
theorem test_wr64_result_ill_formed :
    stmtWellFormed Config.exampleParams (.wr64 .result 0) = false := by decide
theorem test_wr_reserved_ill_formed :
    stmtWellFormed Config.exampleParams (.wr .reserved 0) = false := by decide
theorem test_rd_beyond_capacity_ill_formed :
    stmtWellFormed Config.exampleParams (.rd (.tx 256)) = false
    ∧ stmtWellFormed Config.exampleParams (.rd (.tx 255)) = true
    ∧ stmtWellFormed Config.exampleParams (.wr (.rx 256) 0) = false := by decide
theorem test_long_list_ill_formed :
    stmtWellFormed { txCap := 2, rxCap := 1, eccBase := 0 } (.ldtx [3, 3, 3]) = false
    ∧ stmtWellFormed { txCap := 2, rxCap := 1, eccBase := 0 } (.ldtx [3, 3]) = true
    ∧ stmtWellFormed { txCap := 2, rxCap := 1, eccBase := 0 } (.ldrx [3, 3]) = false := by decide
theorem test_too_small_capacity_ill_formed :
    ¬ Config.Params.Valid { txCap := 210, rxCap := 256, eccBase := 0 } := by decide
theorem test_misaligned_base_ill_formed :
    ¬ Config.Params.Valid { txCap := 256, rxCap := 256, eccBase := 2 } := by decide
theorem test_example_params_valid : Config.exampleParams.Valid := by decide

/-! ## Command words, bit by bit: RSV[31:5], N, OP (R64, R66) -/

theorem test_decode_nop :
    decode 0b000000000000000000000000000_0_0000#32 = .ok .nop := rfl
theorem test_decode_fenc :
    decode 0b000000000000000000000000000_0_0001#32 = .ok .fenc := rfl
theorem test_decode_fenc_n :
    decode 0b000000000000000000000000000_1_0001#32 = .ok .fencN := rfl
theorem test_decode_fdec :
    decode 0b000000000000000000000000000_0_0010#32 = .ok .fdec := rfl
theorem test_decode_menc :
    decode 0b000000000000000000000000000_0_0011#32 = .ok .menc := rfl
theorem test_decode_frenc :
    decode 0b000000000000000000000000000_0_0100#32 = .ok .frenc := rfl
theorem test_decode_frenc_n :
    decode 0b000000000000000000000000000_1_0100#32 = .ok .frencN := rfl
theorem test_decode_norm :
    decode 0b000000000000000000000000000_0_0101#32 = .ok .norm := rfl
theorem test_decode_mdec :
    decode 0b000000000000000000000000000_0_0110#32 = .ok .mdec := rfl
theorem test_decode_frdec :
    decode 0b000000000000000000000000000_0_0111#32 = .ok .frdec := rfl
theorem test_decode_vote :
    decode 0b000000000000000000000000000_0_1000#32 = .ok .vote := rfl
theorem test_decode_rx :
    decode 0b000000000000000000000000000_0_1001#32 = .ok .rx := rfl
/-- DV-DISP-5 to DV-DISP-12. -/
theorem test_decode_illegal :
    decode 0x0000000A = .error .reservedOpcode ∧ decode 0x0000000F = .error .reservedOpcode
    ∧ decode 0x00000010 = .error .notifyNotAllowed ∧ decode 0x00000012 = .error .notifyNotAllowed
    ∧ decode 0x00000019 = .error .notifyNotAllowed ∧ decode 0x00000020 = .error .reservedBits
    ∧ decode 0x80000001 = .error .reservedBits ∧ decode 0xFFFFFFFF = .error .reservedBits :=
  ⟨rfl, rfl, rfl, rfl, rfl, rfl, rfl, rfl⟩
theorem test_table_word : decodeTableWord 32 0x14 = some .frencN := by decide

/-! ## One command each, on vectors of 95_test_vectors.md -/

/-- R116's example. -/
theorem test_nop_clears_err :
    (after .nop { State.reset with err := .badArg, nocons := true }).err = .ok
    ∧ (after .nop { State.reset with err := .badArg, nocons := true }).nocons = true := by decide
/-- DV-PACK-1. -/
theorem test_fenc : (after .fenc (withCfg 0x00180065)).result = 0x270480002 := by decide
/-- DV-PACK-10: an out-of-range temperature is reduced. -/
theorem test_fenc_reduces : (after .fenc (withCfg 0x000E0004)).result = 0x040780002 := by decide
/-- DV-PACK-3. -/
theorem test_fenc_n : (after .fencN (withCfg 0x1700042C)).result = 0x0D9900002 := by decide
/-- DV-PACK-13. -/
theorem test_fenc_n_reduces : (after .fencN (withCfg 0x04000404)).result = 0x049F80002 := by decide
/-- DV-UNPACK-3: power_setting is never written. -/
theorem test_fdec_toggle :
    cfgWord (after .fdec { withCfg 0x00000001 with codeIn := 0x270480002 }).cfg = 0x00180067 := by
  decide
/-- DV-UNPACK-4: notify 1 keeps the temperature. -/
theorem test_fdec_notify :
    cfgWord (after .fdec { withCfg 0x1E140000 with codeIn := 0xD9900002 }).cfg = 0x1714042C := by
  decide
/-- DV-MENC-16. -/
theorem test_menc_merges :
    (after .menc (withTx [5, 5] 0x1F 2)).txSeq 5 = [5, 6, 1, 1, 1] := by decide
/-- DV-MENC-18: TX_OVERFLOW by growth. -/
theorem test_menc_overflow : (after .menc (withTx [65535] 0 1)).err = .txOverflow := by decide
/-- FE-1: TXLEN, the first entries of each repetition and the sentinel. -/
theorem test_frenc :
    (after .frenc (withCfg 0x00180065)).txLen = 181
    ∧ [0, 1, 2, 60, 61, 120, 121, 179, 180].map (after .frenc (withCfg 0x00180065)).txAt
        = [3, 4, 2, 3, 4, 3, 4, 1, 4] := by decide +kernel
/-- DV-DISP-4. -/
theorem test_frenc_n :
    (after .frencN State.reset).txLen = 187
    ∧ (after .frencN State.reset).result = 0x008D80002 := by decide +kernel
/-- DV-NORM-1. -/
theorem test_norm :
    (after .norm (withRx [9, 10, 29, 30] 50)).rxSeq 4 = [0, 1, 1, 2] := by decide
/-- DV-NORM-5: saturation. -/
theorem test_norm_saturates :
    (after .norm { withRx [0xFFFFFFFF, 0x10000] 65535 with unitUs := 1 }).rxSeq 2
      = [0xFFFFFFFF, 0xFFFF0000] := by decide
/-- DV-MDEC-1. -/
theorem test_mdec_borrows :
    (after .mdec { withRx [1, 2, 2, 1, 3] 0 with endIdx := 5 }).result = 2
    ∧ (after .mdec { withRx [1, 2, 2, 1, 3] 0 with endIdx := 5 }).rxSeq 5 = [1, 1, 1, 1, 3] := by
  decide
/-- DV-MDEC-2: an odd START starts in the SPACE phase. -/
theorem test_mdec_odd_start :
    (after .mdec { withRx [3, 1, 1, 3] 0 with start := 1, endIdx := 4 }).result = 1 := by decide
/-- DV-FRD-18: two boundaries with empty payloads. -/
theorem test_frdec_empty_payloads :
    (after .frdec (withRx [3, 3, 3, 3] 1000)).repCount = 2
    ∧ (after .frdec (withRx [3, 3, 3, 3] 1000)).nocons = true := by decide
/-- DV-FRD-1. -/
theorem test_frdec :
    (after .frdec (withRx (okSeq (frame 0x270480002)) 1000)).result = 0x270480002 := by
  decide +kernel
/-- DV-VOTE-3. -/
theorem test_vote_pair :
    (after .vote { State.reset with rep0 := 7, rep1 := 5, rep2 := 5 }).result = 5 := by decide
/-- DV-VOTE-6: two agreeing zeros give failure. -/
theorem test_vote_zeros :
    (after .vote { State.reset with rep2 := 9 }).nocons = true
    ∧ (after .vote { State.reset with rep2 := 9 }).result = 0 := by decide
/-- DV-RX-2: TOGGLE with power_real 1. -/
theorem test_rx_toggle :
    cfgWord (after .rx { withRx (okSeq (frame 0x270480002)) 1000 with
      cfg := cfgOfWord 0x00000002 }).cfg = 0x00180064 := by decide +kernel
/-- DV-RX-8: a failed receive leaves CFG. -/
theorem test_rx_failure :
    cfgWord (after .rx { withRx [] 1000 with cfg := cfgOfWord 0x001E0288 }).cfg = 0x001E0288 := by
  decide

/-! ## The host interface -/

/-- A word as the first command after reset, and an illegal one (DV-DISP-2, DV-DISP-9). -/
theorem test_first_command :
    (stateOf (step (State.reset.withFetchWord 32 0x01))).result = 0x000080002
    ∧ (stateOf (step (State.reset.withFetchWord 32 0x19))).err = .illegalOp := by decide
/-- `rd UNIT_US` after reset gives 1000 (R135). -/
theorem test_read_unit :
    (stateOf (step { State.reset with inputs := [.read 0x030 4] })).readData = some 1000 := by
  decide
/-- TXBUF entries keep 16 bits (R43). -/
theorem test_write_tx :
    (stateOf (step { State.reset with inputs := [.write 0x1014 4 0xABCD1234] })).txAt 5
      = 0x1234 := by decide
/-- The RXBUF window starts at 0x2000 (R49). -/
theorem test_write_rx :
    (stateOf (step { State.reset with inputs := [.write 0x2000 4 0xABCD1234] })).rxAt 0
      = 0xABCD1234 := by decide
/-- P4, statement 5: `wr64 CODE_IN, 1` is two writes, low word first (R79). -/
theorem test_wr64_moves :
    stmtMoves Config.exampleParams (.wr64 .codeIn 0x270480002)
      = [.write 0x008 4 0x70480002, .write 0x00C 4 0x00000002] := by decide
/-- `[3, 4]` at the reset UNIT_US: a mark of 3 ms, a space of 4 ms, then idle (R128). -/
theorem test_line_returns_to_idle :
    [0, 2999, 3000, 6999, 7000, 99999].map
        (lineLevel (transmitPulses (withTx [3, 4] 0 0)))
      = [.mark, .mark, .space, .space, .space, .space]
    ∧ lineLevel (transmitPulses (withTx [3] 0 0)) 2999 = .mark
    ∧ lineLevel (transmitPulses (withTx [3] 0 0)) 3000 = .space := by decide

/-- What a run of moves from reset is, when the host keeps its duties. -/
def dutiful (es : List Event) : Bool := dutifulRun Monitor.start State.reset es

/-- A command word to CMD, as an event. -/
def command (w : Word) : Event := .input (.write 0x000 4 w)

/-- BITS <- 1, then MENC: a sequence to send. -/
def encodeOneBit : List Event := [.input (.write 0x018 4 1), command 0x3]

/-- A capture of one 60-tick mark at 50 microseconds a tick, loaded as R129 says. -/
def loadCapture : List Event :=
  [.input (.captureHandOff [60] 50), .input (.write 0x2000 4 60), .input (.write 0x028 4 1),
   .input (.write 0x02C 4 50)]

/-- R131.1, R61: no MENC and no TXLEN write while the driver sends; only an encoded sequence goes to
the driver. -/
theorem test_duty_transmit :
    dutiful (encodeOneBit ++ [.input .transmitHandOff, command 0x3]) = false
    ∧ dutiful (encodeOneBit ++ [.input .transmitHandOff, .input (.write 0x024 4 0)]) = false
    ∧ dutiful (encodeOneBit ++ [.input .transmitHandOff, .driverDone, command 0x3]) = true
    ∧ dutiful [.input .transmitHandOff] = false
    ∧ dutiful (encodeOneBit ++ [.input (.write 0x024 4 0), .input .transmitHandOff]) = false := by
  decide
/-- R61, R131.3: a decode or NORM needs a loaded capture, and a decode consumes it. -/
theorem test_duty_capture :
    dutiful (loadCapture ++ [command 0x7]) = true
    ∧ dutiful (loadCapture ++ [command 0x7, command 0x7]) = false
    ∧ dutiful (loadCapture ++ [command 0x5, command 0x6]) = true
    ∧ dutiful (loadCapture ++ [command 0x5, command 0x6, command 0x6]) = false
    ∧ dutiful [.input (.captureHandOff [60] 50), command 0x5] = false
    ∧ dutiful [.input (.captureHandOff [60] 50), command 0x7, .input (.captureHandOff [60] 50),
        command 0x7] = false
    ∧ dutiful (loadCapture.take 3 ++ [command 0x7]) = false
    ∧ dutiful [.input (.write 0x02C 4 50), command 0x5] = false := by decide
/-- R131.5, R136.1: a command that uses CFG comes after a valid record is loaded. -/
theorem test_duty_cfg :
    dutiful [command 0x11] = false
    ∧ dutiful [.input (.write 0x034 4 0x05180004), command 0x11] = true
    ∧ dutiful [.input (.write 0x034 4 0x00180065), command 0x1] = false
    ∧ dutiful [.input (.write 0x034 4 0x05180004), .input .reset, command 0x2] = false := by decide

/-! ## Witnesses: the hypotheses of the statements are met -/

/-- The reset state with inputs waiting. -/
def waiting (ms : List Input) : State := { State.reset with inputs := ms }

theorem witness_IllegalWordsRaiseIllegalOp :
    IllegalCommandWord 0x00000020 ∧ IllegalCommandWord 0x80000000 ∧ IllegalCommandWord 0x0000000A
    ∧ IllegalCommandWord 0x0000000F ∧ IllegalCommandWord 0x00000010
    ∧ IllegalCommandWord 0x00000019
    ∧ ¬ IllegalCommandWord 0x00000009 ∧ ¬ IllegalCommandWord 0x00000011
    ∧ ¬ IllegalCommandWord 0x00000014 := by unfold IllegalCommandWord; decide
theorem witness_CommandWriteRunsTheCommand :
    State.reset.params.eccBase % 4 = 0
    ∧ (waiting [.write 0 4 0x1]).inputs
        = .write (waiting [.write 0 4 0x1]).params.eccBase 4 0x1 :: []
    ∧ decode 0x1#32 = .ok .fenc ∧ decode 0xA#32 = .error .reservedOpcode :=
  ⟨rfl, rfl, rfl, rfl⟩
theorem witness_NoInputNoChange : State.reset.inputs = [] := rfl
theorem witness_OnlyAlignedWordAccesses :
    ¬ (2 = 4 ∧ 0 % 4 = 0) ∧ ¬ (4 = 4 ∧ 0xFFFE % 4 = 0)
    ∧ (4 = 4 ∧ 0xFFFC % 4 = 0 ∧ State.reset.params.eccBase ≤ 0xFFFC
        ∧ 0xFFFC < State.reset.params.eccBase + 0x10000)
    ∧ (waiting [.read 0xFFFC 4]).inputs = .read 0xFFFC 4 :: []
    ∧ (waiting [.write 0 2 7]).inputs = .write 0 2 7 :: [] := by decide
theorem witness_AccessOutsideTheSpaceFaults :
    (0x10000 % 4 = 0 ∧ State.reset.params.eccBase + 0x10000 ≤ 0x10000)
    ∧ (0 % 4 = 0 ∧ 0 < ({ txCap := 256, rxCap := 256, eccBase := 4 } : Config.Params).eccBase)
    ∧ (waiting [.read 0x10000 4]).inputs = .read 0x10000 4 :: []
    ∧ (waiting [.write 0x10000 4 7]).inputs = .write 0x10000 4 7 :: [] := by decide
theorem witness_ReservedWordsDoNothing :
    State.reset.params.Valid
    ∧ (∀ off ∈ [0x03C, 0x058, 0xFFC, 0x1400, 0x1FFC, 0x2400, 0x2FFC, 0x3000, 0xFFFC],
        off % 4 = 0 ∧ ReservedOffset State.reset.params off)
    ∧ (∀ off ∈ [0x038, 0x040, 0x054, 0x1000, 0x13FC, 0x2000, 0x23FC],
        ¬ ReservedOffset State.reset.params off) := by unfold ReservedOffset; decide
theorem witness_MovesReachTheirRegister :
    State.reset.params.Valid
    ∧ mapOffset State.reset.params (.tx 255) = some 0x13FC
    ∧ mapOffset State.reset.params (.rx 255) = some 0x23FC
    ∧ mapOffset State.reset.params .start = some 0x01C
    ∧ (waiting [.read 0x23FC 4]).inputs = .read (State.reset.params.eccBase + 0x23FC) 4 :: []
    ∧ (waiting [.write 0x13FC 4 9]).inputs
        = .write (State.reset.params.eccBase + 0x13FC) 4 9 :: [] := by decide
theorem witness_WrittenRegistersReadBack :
    storedBits .cfg = some 0x3F3F07FF ∧ storedBits .status = none ∧ Reg.tx 1 ≠ Reg.tx 0 := by
  decide
theorem witness_TransmitHandOffGivesThePulses :
    (withTx [3, 3] 0 0).txLen.toNat ≤ (withTx [3, 3] 0 0).params.txCap
    ∧ ({ withTx [3, 3] 0 0 with inputs := [.transmitHandOff] } : State).inputs
        = .transmitHandOff :: []
    ∧ 1 < (withTx [3, 3] 0 0).txLen.toNat
    ∧ startMicros (withTx [3, 3] 0 0) 1 = 3000 ∧ startMicros (withTx [3, 3] 0 0) (1 + 1) = 6000
    ∧ 3000 ≤ 5999 ∧ 5999 < 6000 := by decide
theorem witness_CaptureHandOffDoesNothing :
    (waiting [.captureHandOff [60] 50]).inputs = .captureHandOff [60] 50 :: [] := rfl
theorem witness_ResetSetsEveryRegister :
    (waiting [.reset]).inputs = .reset :: []
    ∧ step (waiting [.reset]) = .next (stateOf (step (waiting [.reset]))) := ⟨rfl, rfl⟩
theorem witness_ResetIsAlwaysTaken : (waiting [.reset, .captureHandOff [60] 50]).inputs
    = .reset :: [.captureHandOff [60] 50] := rfl
theorem witness_StepKeepsMemoryForm :
    MemoryForm (waiting [.write 0x13FC 4 9])
    ∧ step (waiting [.write 0x13FC 4 9])
        = .next (stateOf (step (waiting [.write 0x13FC 4 9]))) :=
  ⟨⟨by decide, rfl⟩, eq_next _ (by decide)⟩
theorem witness_FieldsSurviveTheRoundTrip :
    InRange (withCfg 0x050F0004).cfg ∧ InRange (withCfg 0x241E0014).cfg := by
  unfold InRange; decide
theorem witness_PowerIsATogglePair :
    bitOf 0x270480002 33 = 1 ∧ bitOf 0x070480002 33 = 0 := by decide
theorem witness_PackedCodesAreWellFormed :
    InRange (withCfg 0x050F0004).cfg ∧ WellFormedCode 0x40000002 := by
  unfold InRange WellFormedCode; decide
theorem witness_NoEncoderGivesTheSentinel :
    Instr.frencN = .fenc ∨ Instr.frencN = .fencN ∨ Instr.frencN = .frenc
      ∨ Instr.frencN = .frencN := by decide
theorem witness_OneBitByTheLevelBefore :
    [1].length % 2 = 1 ∧ ([] : List Nat).length % 2 = 0
    ∧ emitBit [1] true = .ok [1, 1, 1] := ⟨rfl, rfl, rfl⟩
theorem witness_EncodingKeepsTheWaveform :
    [1, 1] ≠ [] ∧ encodeBits 0x3 2 [1, 1] = .ok [1, 2, 1, 1, 1] := ⟨by decide, rfl⟩
theorem witness_EncodingAddsShortEntries :
    encodeBits 0x3 2 [1, 1] = .ok [1, 2, 1, 1, 1] ∧ 0 + 1 < [1, 1].length
    ∧ 1 + 1 = [1, 1].length ∧ [1, 1].length ≤ 4 ∧ [1, 2, 1, 1, 1][4]? = some 1 :=
  ⟨rfl, by decide, rfl, by decide, rfl⟩
theorem witness_EncodingIsMinimal :
    (∀ d ∈ [1, 1], 0 < d) ∧ encodeBits 0x3 2 [1, 1] = .ok [1, 2, 1, 1, 1]
    ∧ waveform [1, 1, 0, 1, 1, 1, 1] = waveform [1, 2, 1, 1, 1] := ⟨by decide, rfl, by decide⟩
theorem witness_MencAppendsTheBits :
    (withTx [65534] 0 1).params.Valid ∧ ¬ BadEncode (withTx [65534] 0 1)
    ∧ ¬ EmptySpace (withTx [65534] 0 1) ∧ ¬ Overflows (withTx [65534] 0 1)
    ∧ ExtendsLast (withTx [65534] 0 1) ∧ ¬ ExtendsLast (withTx [65534] 1 1) := by
  unfold BadEncode EmptySpace Overflows ExtendsLast; decide
theorem witness_MencOfNoBitsChangesNothing :
    (withTx [5, 5] 0 0).bits = 0
    ∧ (withTx [5, 5] 0 0).txLen.toNat ≤ (withTx [5, 5] 0 0).params.txCap := by decide
theorem witness_FrameHasThreeEqualRepetitions :
    (0x2AAAAAAAA : Code).getLsbD 0 = false ∧ (0x2AAAAAAAA : Code).getLsbD 33 = true
    ∧ (0x040000002 : Code).getLsbD 0 = false ∧ (0x040000002 : Code).getLsbD 33 = false
    ∧ 2 < repetitionLength 0x2AAAAAAAA := by decide
theorem witness_FrameLengthBounds : (0 : Code).getLsbD 0 = false := by decide
theorem witness_SentFrameLasts226Units :
    State.reset.params.Valid ∧ exec .frencN State.reset = .next (after .frencN State.reset) :=
  ⟨by decide, eq_next _ (by decide +kernel)⟩
theorem witness_NormRoundsToTheNearestUnit :
    ¬ BadCapture { State.reset with rxLen := 256, tickUs := 1 }
    ∧ 255 < ({ State.reset with rxLen := 256, tickUs := 1 } : State).rxLen.toNat := by
  unfold BadCapture; decide
theorem witness_NormIsIdentityAtEqualScales :
    ¬ BadCapture (withRx [1, 2, 3] 1000)
    ∧ (withRx [1, 2, 3] 1000).tickUs = (withRx [1, 2, 3] 1000).unitUs := by
  unfold BadCapture; decide
theorem witness_MdecRunsTheStepList :
    ¬ BadWindow { withRx [1, 2, 2, 1, 3] 0 with endIdx := 5 } := by unfold BadWindow; decide
theorem witness_BorrowsTakeOneUnit :
    exec .mdec { withRx [1, 2, 3] 0 with endIdx := 3 }
      = .next (after .mdec { withRx [1, 2, 3] 0 with endIdx := 3 }) := eq_next _ (by decide)
theorem witness_EmptyWindowDecodesToZero :
    ¬ BadWindow State.reset ∧ State.reset.endIdx.toNat ≤ State.reset.start.toNat := by
  unfold BadWindow; decide
theorem witness_FrdecRunsTheScan : ¬ BadCapture (withRx [3, 4, 1, 1, 3] 1000) := by
  unfold BadCapture; decide
theorem witness_ShortCaptureFindsNothing :
    ¬ BadCapture (withRx [3] 1000) ∧ (withRx [3] 1000).rxLen.toNat ≤ 1 := by
  unfold BadCapture; decide
theorem witness_VoteIsTheMajority :
    majority 5 7 5 = 5 ∧ (5 : Code) = 5 ∧ majority 7 5 5 = 5 := by decide
theorem witness_RxAppliesTheResult :
    ¬ BadCapture (withRx [] 1000) ∧ (after .frdec (withRx [] 1000)).result = 0
    ∧ ¬ BadCapture (withRx [3, 3, 1, 2, 1, 3, 3, 1, 2, 1, 3, 3, 1, 2, 1, 4] 1000)
    ∧ BadCapture State.reset := by unfold BadCapture; decide
/-- Two repetitions of the bits 0 and 1 and a sentinel: a short code, but a nonzero result. -/
theorem witness_RxAppliesTheResult_nonzero :
    (after .frdec (withRx [3, 3, 1, 2, 4, 3, 1, 2, 5] 1000)).result ≠ 0 := by decide
theorem witness_ErrorCodesFollowTheTable :
    BadCapture State.reset ∧ BadEncode { State.reset with bits := 65 }
    ∧ (¬ BadEncode (withTx [] 1 1) ∧ EmptySpace (withTx [] 1 1))
    ∧ (¬ BadEncode (withTx [65535] 0 1) ∧ ¬ EmptySpace (withTx [65535] 0 1)
        ∧ Overflows (withTx [65535] 0 1))
    ∧ BadWindow { State.reset with endIdx := 1 } := by
  unfold BadCapture BadEncode BadWindow EmptySpace Overflows ExtendsLast; decide
theorem witness_ErrorsArePrecise :
    runCommandWord State.reset 0x7 = .next (stateOf (runCommandWord State.reset 0x7))
    ∧ (stateOf (runCommandWord State.reset 0x7)).err ≠ .ok := ⟨eq_next _ (by decide), by decide⟩
theorem witness_NoconsMirrorsAZeroVote :
    (0x8 : Word) = encode .vote ∧ votes .vote = true
    ∧ (stateOf (runCommandWord State.reset 0x8)).err = .ok
    ∧ votes .fenc = false := by decide
theorem witness_CommandsWriteOnlyTheirRegisters :
    (after .fdec State.reset).cfg ≠ State.reset.cfg
    ∧ (after .fenc State.reset).result ≠ State.reset.result
    ∧ (after .menc (withTx [1] 0 1)).txLen ≠ (withTx [1] 0 1).txLen
    ∧ (after .norm (withRx [9] 50)).mem.rx ≠ (withRx [9] 50).mem.rx
    ∧ (after .frdec (withRx [3, 3, 1, 2, 1, 4] 1000)).repCount ≠ 0 := by decide
theorem witness_BufferWritesStayInRange :
    State.reset.params.Valid ∧ (after .menc (withTx [5] 0 1)).txAt 0 ≠ (withTx [5] 0 1).txAt 0
    ∧ (after .norm (withRx [9] 50)).rxAt 0 ≠ (withRx [9] 50).rxAt 0 := by decide
theorem witness_EntriesBeyondTheLengthsAreNotRead :
    State.reset.setRx 3 7 = { State.reset with mem := (State.reset.setRx 3 7).mem }
    ∧ (∀ j, j < State.reset.txLen.toNat → (State.reset.setRx 3 7).txAt j = State.reset.txAt j)
    ∧ ∀ j, j < State.reset.rxLen.toNat → (State.reset.setRx 3 7).rxAt j = State.reset.rxAt j :=
  ⟨rfl, fun _ _ => rfl, fun _ h => absurd h (Nat.not_lt_zero _)⟩
theorem witness_DutifulHostLeavesTheTransmission :
    hostMay { Monitor.start with transmitting := true } (waiting [.write 0 4 0x0])
        (.write 0 4 0x0) = true
    ∧ Input.write 0 4 0x0 ≠ .reset
    ∧ (waiting [.write 0 4 0x0]).inputs = .write 0 4 0x0 :: [] := by decide
/-- A monitor after the host has loaded everything, and the state it then sees. -/
def readyMonitor : Monitor :=
  { Monitor.start with capture := .handed [60] 50, cfgLoaded := true }

/-- The capture of `loadCapture` in RXBUF and a valid record in CFG, with a move waiting. -/
def readyState (m : Input) : State :=
  { withRx [60] 50 with cfg := cfgOfWord 0x05180004, inputs := [m] }

/-- The host may issue the command now, and it is that command. -/
def mayIssue (i : Instr) : Bool :=
  let m := Input.write 0 4 (encode i)
  hostMay readyMonitor (readyState m) m
    && issuedCommand (readyState m).params m == some i && (readyState m).inputs == [m]

theorem witness_DutifulDecodesAndFieldEncodesSucceed :
    [Instr.fenc, .fencN, .frenc, .frencN, .norm, .mdec, .frdec, .rx].all mayIssue = true
    ∧ (readyState .reset).unitUs ≠ 0
    ∧ (readyState .reset).endIdx.toNat ≤ (readyState .reset).rxLen.toNat := by decide
theorem witness_FrameRoundTrip : (0x3FFFFFFFF : Code).toNat < 2 ^ 34 := by decide

/-- What FRENC leaves for code A. -/
def sentA : State := after .frenc (withCfg 0x00180065)

/-- A capture of it in ticks of 50 microseconds, entry j off by `(7j mod 20) - 10` ticks
(DV-FRD-5). -/
def jitteredA : State :=
  withRx (((sentA.txSeq 181).zip (List.range 181)).map fun uj =>
    20 * uj.1 + (7 * uj.2) % 20 - 10) 50

theorem witness_JitteredFrameIsReceived :
    Received false (withCfg 0x00180065) sentA jitteredA := by
  refine ⟨eq_next _ (by decide +kernel), by decide +kernel, ?_, ?_⟩
  · unfold BadCapture; decide +kernel
  · unfold CapturedWithinJitter; decide +kernel
theorem witness_ConfigurationIsTransferred :
    InRange (cfgOfWord 0x17180065) := by unfold InRange; decide

end Sys2Proof.Tests
end

section
/-! PROOFS. What a command can do, said once: `exec` as `finish` of one body, the state a body completes
with, and the errors it can raise. -/

namespace Sys2Proof.Machine

/-- The body of each command: its rule without the end that `finish` adds (R67). -/
def bodyOf : Instr → State → Except ErrCode State
  | .nop => .ok
  | .fenc => fencBody false
  | .fencN => fencBody true
  | .fdec => fun s => .ok { s with cfg := unpackApply s.cfg s.codeIn }
  | .menc => mencBody
  | .frenc => frencBody false
  | .frencN => frencBody true
  | .norm => normBody
  | .mdec => mdecBody
  | .frdec => frdecBody
  | .vote => voteBody
  | .rx => rxBody

theorem exec_eq_finish (i : Instr) (s : State) : exec i s = finish s (bodyOf i s) := by
  cases i <;> rfl

/-- The state after FRDEC's scan gave `f` (R113). -/
def State.withFrame (s : State) (f : FrameResult) : State :=
  { s.storeRx f.units with
    rep0 := f.rep0, rep1 := f.rep1, rep2 := f.rep2
    repCount := BitVec.ofNat 2 f.count
    result := f.res, nocons := noConsensus f.res }

/-- The state after RX's second half (R115): RESULT applied to CFG unless it is the sentinel. -/
def State.applyResult (s : State) : State :=
  { s with cfg := if s.result = 0 then s.cfg else unpackApply s.cfg s.result }

/-- The body of command `i` completes on `s` and leaves `u`, ERR aside: one constructor per command. -/
inductive Completes (s : State) : Instr → State → Prop where
  | nop : Completes s .nop s
  | fenc : Completes s .fenc { s with result := pack s.cfg false }
  | fencN : Completes s .fencN { s with result := pack s.cfg true }
  | fdec : Completes s .fdec { s with cfg := unpackApply s.cfg s.codeIn }
  | menc {seq : List Nat} : s.badEncodeArgs = false →
      encodeBits s.codeIn s.bits.toNat (s.txSeq s.txLen.toNat) = .ok seq →
      txOverflows s.params.txCap seq = false →
      Completes s .menc { s.storeTx seq with txLen := BitVec.ofNat 16 seq.length }
  | frenc {seq : List Nat} : frame (pack s.cfg false) = .ok seq →
      Completes s .frenc { s.storeTx seq with
        txLen := BitVec.ofNat 16 seq.length, result := pack s.cfg false }
  | frencN {seq : List Nat} : frame (pack s.cfg true) = .ok seq →
      Completes s .frencN { s.storeTx seq with
        txLen := BitVec.ofNat 16 seq.length, result := pack s.cfg true }
  | norm : s.badCaptureArgs = false → Completes s .norm (s.storeRx s.normalised)
  | mdec {res : Code} {units : List Nat} : s.badWindowArgs = false →
      mdecFn (s.rxSeq s.endIdx.toNat) s.start.toNat s.endIdx.toNat = (res, units) →
      Completes s .mdec { s.storeRx units with result := res }
  | frdec : s.badCaptureArgs = false →
      Completes s .frdec (s.withFrame (frameDec s.normalised s.rxLen.toNat))
  | vote : Completes s .vote
      { s with result := maj s.rep0 s.rep1 s.rep2, nocons := noConsensus (maj s.rep0 s.rep1 s.rep2) }
  | rx : s.badCaptureArgs = false →
      Completes s .rx (s.withFrame (frameDec s.normalised s.rxLen.toNat)).applyResult

/-- ENCODE_BITS raises no error but EMPTY_SPACE (R91, R92). -/
theorem encodeBits_error {code : Code} {n : Nat} {seq : List Nat} {e : ErrCode}
    (h : encodeBits code n seq = .error e) : e = .emptySpace := by
  rcases List.eq_nil_or_concat seq with rfl | ⟨pre, x, rfl⟩
  · rw [encodeBits_nil] at h
    cases n with
    | zero => cases h
    | succ k =>
      simp only at h
      split at h <;> cases h
      rfl
  · rw [List.concat_eq_append, encodeBits_snoc] at h
    cases h

theorem frdecBody_eq (s : State) :
    frdecBody s = if s.badCaptureArgs then .error .badArg
      else .ok (s.withFrame (frameDec s.normalised s.rxLen.toNat)) := rfl

theorem rxBody_eq (s : State) :
    rxBody s = if s.badCaptureArgs then .error .badArg
      else .ok (s.withFrame (frameDec s.normalised s.rxLen.toNat)).applyResult := by
  simp only [rxBody, frdecBody_eq]
  split
  · rfl
  · simp only [Bind.bind, Except.bind, State.applyResult]
    split <;> rfl

/-- Which errors a command can raise, and why (R121). -/
theorem bodyOf_error {i : Instr} {s : State} {e : ErrCode} (h : bodyOf i s = .error e) :
    (i = .menc ∧ (e = .badArg ∨ e = .emptySpace ∨ e = .txOverflow))
    ∨ (i = .mdec ∧ s.badWindowArgs = true ∧ e = .badArg)
    ∨ ((i = .norm ∨ i = .frdec ∨ i = .rx) ∧ s.badCaptureArgs = true ∧ e = .badArg) := by
  cases i with
  | nop | fenc | fencN | fdec | vote => cases h
  | frenc | frencN =>
    obtain ⟨_, -, hb⟩ := frencBody_eq _ s
    cases hb.symm.trans h
  | menc =>
    refine .inl ⟨rfl, ?_⟩
    rcases mencBody_cases s with ⟨-, hb⟩ | ⟨-, ⟨e', he, hb⟩ | ⟨seq, -, ⟨-, hb⟩ | ⟨-, hb⟩⟩⟩ <;>
      cases hb.symm.trans h
    · exact .inl rfl
    · exact .inr (.inl (encodeBits_error he))
    · exact .inr (.inr rfl)
  | mdec =>
    rcases mdecBody_cases s with ⟨hw, hb⟩ | ⟨-, _, _, -, hb⟩ <;> cases hb.symm.trans h
    exact .inr (.inl ⟨rfl, hw, rfl⟩)
  | norm =>
    rcases normBody_cases s with ⟨hc, hb⟩ | ⟨-, hb⟩ <;> cases hb.symm.trans h
    exact .inr (.inr ⟨.inl rfl, hc, rfl⟩)
  | frdec =>
    rcases frdecBody_cases s with ⟨hc, hb⟩ | ⟨-, _, -, hb⟩ <;> cases hb.symm.trans h
    exact .inr (.inr ⟨.inr (.inl rfl), hc, rfl⟩)
  | rx =>
    change rxBody s = _ at h
    rw [rxBody_eq] at h
    split at h <;> cases h
    exact .inr (.inr ⟨.inr (.inr rfl), ‹_›, rfl⟩)

theorem bodyOf_error_ne_ok {i : Instr} {s : State} {e : ErrCode} (h : bodyOf i s = .error e) :
    e ≠ .ok := by
  rcases bodyOf_error h with ⟨-, rfl | rfl | rfl⟩ | ⟨-, -, rfl⟩ | ⟨-, -, rfl⟩ <;> simp

/-- What a command's body leaves where it raises no error. -/
theorem completes_of_bodyOf {i : Instr} {s u : State} (h : bodyOf i s = .ok u) :
    Completes s i u := by
  cases i with
  | nop => cases h; exact .nop
  | fenc => cases h; exact .fenc
  | fencN => cases h; exact .fencN
  | fdec => cases h; exact .fdec
  | vote => cases h; exact .vote
  | menc =>
    rcases mencBody_cases s with ⟨-, hb⟩ | ⟨ha, ⟨_, -, hb⟩ | ⟨_, he, ⟨-, hb⟩ | ⟨ho, hb⟩⟩⟩ <;>
      cases hb.symm.trans h
    exact .menc ha he ho
  | frenc =>
    obtain ⟨_, hf, hb⟩ := frencBody_eq false s
    cases hb.symm.trans h
    exact .frenc hf
  | frencN =>
    obtain ⟨_, hf, hb⟩ := frencBody_eq true s
    cases hb.symm.trans h
    exact .frencN hf
  | norm =>
    rcases normBody_cases s with ⟨-, hb⟩ | ⟨hc, hb⟩ <;> cases hb.symm.trans h
    exact .norm hc
  | mdec =>
    rcases mdecBody_cases s with ⟨-, hb⟩ | ⟨hw, _, _, hm, hb⟩ <;> cases hb.symm.trans h
    exact .mdec hw hm
  | frdec =>
    rcases frdecBody_cases s with ⟨-, hb⟩ | ⟨hc, _, rfl, hb⟩ <;> cases hb.symm.trans h
    exact .frdec hc
  | rx =>
    change rxBody s = _ at h
    rw [rxBody_eq] at h
    split at h <;> cases h
    exact .rx (Bool.eq_false_of_not_eq_true ‹_›)

/-- Every command ends, with what its body leaves and ERR 0, or with the state before it and an
error (R67, R123). -/
theorem exec_cases (i : Instr) (s : State) :
    (∃ u, Completes s i u ∧ exec i s = .next u.complete)
    ∨ (∃ e, bodyOf i s = .error e ∧ exec i s = .next (s.raise e)) := by
  rw [exec_eq_finish]
  cases hb : bodyOf i s with
  | ok u => exact .inl ⟨u, completes_of_bodyOf hb, rfl⟩
  | error e => exact .inr ⟨e, rfl, rfl⟩

end Sys2Proof.Machine
end

section
/-! PROOFS. The frame of every command (R20 to R44, R57), and the form of the memory that every step
keeps (R43, R44, R6). -/

namespace Sys2Proof.Machine

open Sys2Proof.Spec

/-! ## What a completed command leaves alone -/

section
variable {i : Instr} {s u : State}

/-- The registers a command can write are NOCONS, RESULT, TXLEN, CFG, REPCOUNT, the three REPs and the
buffers; ERR is written by `finish`. -/
theorem Completes.frame (h : Completes s i u) :
    u = { s with nocons := u.nocons, result := u.result, txLen := u.txLen, cfg := u.cfg,
                 repCount := u.repCount, rep0 := u.rep0, rep1 := u.rep1, rep2 := u.rep2,
                 mem := u.mem } := by
  cases h <;> rfl

theorem Completes.params_eq (h : Completes s i u) : u.params = s.params := by rw [h.frame]

/-- UNPACK_APPLY never writes the host's two fields (R83). -/
theorem Completes.cfg_hostFields (h : Completes s i u) :
    u.cfg.powerSetting = s.cfg.powerSetting ∧ u.cfg.swingH = s.cfg.swingH := by
  cases h with
  | rx =>
    simp only [State.applyResult]
    split <;> exact ⟨rfl, rfl⟩
  | _ => exact ⟨rfl, rfl⟩

theorem Completes.of_cfg_ne (h : Completes s i u) (hne : u.cfg ≠ s.cfg) :
    i = .fdec ∨ i = .rx := by
  cases h with
  | fdec => exact .inl rfl
  | rx => exact .inr rfl
  | _ => exact absurd rfl hne

theorem Completes.of_result_ne (h : Completes s i u) (hne : u.result ≠ s.result) :
    i ≠ .nop ∧ i ≠ .fdec ∧ i ≠ .menc ∧ i ≠ .norm := by
  cases h with
  | nop | fdec | menc | norm => exact absurd rfl hne
  | _ => simp

theorem Completes.of_transmit_ne (h : Completes s i u)
    (hne : u.txLen ≠ s.txLen ∨ u.mem.tx ≠ s.mem.tx) : i = .menc ∨ i = .frenc ∨ i = .frencN := by
  cases h with
  | menc | frenc | frencN => simp
  | _ => exact absurd hne (not_or_intro (not_not_intro rfl) (not_not_intro rfl))

theorem Completes.of_capture_ne (h : Completes s i u) (hne : u.mem.rx ≠ s.mem.rx) :
    i = .norm ∨ i = .mdec ∨ i = .frdec ∨ i = .rx := by
  cases h with
  | norm | mdec | frdec | rx => simp
  | _ => exact absurd rfl hne

theorem Completes.of_candidates_ne (h : Completes s i u)
    (hne : u.rep0 ≠ s.rep0 ∨ u.rep1 ≠ s.rep1 ∨ u.rep2 ≠ s.rep2 ∨ u.repCount ≠ s.repCount) :
    i = .frdec ∨ i = .rx := by
  cases h with
  | frdec | rx => simp
  | _ => simp at hne

/-- NOCONS is written by a vote, which makes it say whether RESULT is 0 (R19). -/
theorem Completes.nocons_eq (h : Completes s i u) :
    u.nocons = if votes i then noConsensus u.result else s.nocons := by
  cases h <;> rfl

end

/-! ## The form of the memory -/

theorem closedTail_length_le (code : Code) (m : Nat) (rest : List Nat) (k : Nat) (lev : Polarity)
    (x : Nat) : (closedTail code m rest k lev x).length ≤ 2 * k + 2 + rest.length := by
  induction k generalizing lev x with
  | zero => cases lev <;> simp [closedTail]; omega
  | succ k ih =>
    have := ih (secondHalf (code.getLsbD k)) 1
    simp only [closedTail]
    split <;> simp only [List.length_cons] <;> omega

/-- R99: no frame has more than 211 entries, whatever the code. -/
theorem frame_length_le {code : Code} {seq : List Nat} (h : frame code = .ok seq) :
    seq.length ≤ 211 := by
  rw [frame_eq] at h
  cases h
  have h₃ := closedTail_length_le code 4 [] codeBits .space 3
  have h₂ := closedTail_length_le code 3 (repetitionTail code 4 []) codeBits .space 3
  have h₁ := closedTail_length_le code 3 (repetitionTail code 3 (repetitionTail code 4 []))
    codeBits .space 3
  simp only [List.length_cons, List.length_nil, codeBits, repetitionTail] at *
  omega

/-- A sequence that does not overflow fits into TXBUF and each entry into 16 bits (R95). -/
theorem txOverflows_eq_false {cap : Nat} {seq : List Nat} (h : txOverflows cap seq = false) :
    seq.length ≤ cap ∧ ∀ d ∈ seq, d < 2 ^ 16 := by
  simp only [txOverflows, Bool.or_eq_false_iff, decide_eq_false_iff_not, List.any_eq_false,
    decide_eq_true_eq] at h
  exact ⟨by omega, fun d hd => by have := h.2 d hd; omega⟩

theorem Completes.wf_mem {i : Instr} {s u : State} (h : Completes s i u) (hs : MemoryForm s) :
    u.mem.wf s.params = true := by
  obtain ⟨hp, hm⟩ := hs
  have fits_of_capture (hc : s.badCaptureArgs = false) : s.rxLen.toNat ≤ s.params.rxCap := by
    have := mt (badCaptureArgs_iff s).2 (by simp [hc])
    omega
  have fits_of_window (hc : s.badWindowArgs = false) : s.endIdx.toNat ≤ s.params.rxCap := by
    have := mt (badWindowArgs_iff s).2 (by simp [hc])
    omega
  cases h with
  | nop | fenc | fencN | fdec | vote => exact hm
  | menc _ _ ho => exact wf_storeTx (txOverflows_eq_false ho).1 hm
  | frenc hf | frencN hf => exact wf_storeTx ((frame_length_le hf).trans hp.1) hm
  | norm hc => exact wf_storeRx (by simpa using fits_of_capture hc) hm
  | mdec hw hu =>
    refine wf_storeRx ?_ hm
    have := mdecFn_length (s.rxSeq s.endIdx.toNat) s.start.toNat s.endIdx.toNat
    rw [hu, State.length_rxSeq] at this
    exact this.trans_le (fits_of_window hw)
  | frdec hc | rx hc =>
    refine wf_storeRx ?_ hm
    rw [frameDec_units_length, State.length_normalised]
    exact fits_of_capture hc

/-- What a step must leave: the form of the memory, and the parameters. -/
def KeepsForm (s t : State) : Prop := MemoryForm t ∧ t.params = s.params

theorem KeepsForm.intro {s t : State} (hs : MemoryForm s) (hp : t.params = s.params)
    (hm : t.mem.wf s.params = true) : KeepsForm s t :=
  ⟨⟨hp ▸ hs.1, by rw [hp]; exact hm⟩, hp⟩

theorem exec_keepsForm {i : Instr} {s t : State} (hs : MemoryForm s) (h : exec i s = .next t) :
    KeepsForm s t := by
  rcases exec_cases i s with ⟨u, hu, hx⟩ | ⟨e, -, hx⟩ <;> cases hx.symm.trans h
  · exact .intro hs hu.params_eq (hu.wf_mem hs)
  · exact .intro hs rfl hs.2

theorem runCommandWord_keepsForm {s t : State} {w : Word} (hs : MemoryForm s)
    (h : runCommandWord s w = .next t) : KeepsForm s t := by
  unfold runCommandWord at h
  split at h
  · exact exec_keepsForm hs h
  · cases h
    exact .intro hs rfl hs.2

/-- The map gives a buffer entry an address only below its buffer's capacity (R43, R44, R49). -/
def RegInMap (p : Config.Params) : Reg → Prop
  | .tx j => j < p.txCap
  | .rx j => j < p.rxCap
  | _ => True

theorem regInMap_regAt (p : Config.Params) (off : Nat) : RegInMap p (regAt p off) := by
  unfold regAt
  split
  · simp only [RegInMap]; omega
  · split
    · simp only [RegInMap]; omega
    · split <;> trivial

theorem writeReg_keepsForm {s : State} {r : Reg} (v : Word) (hs : MemoryForm s)
    (hr : RegInMap s.params r) : KeepsForm s (writeReg s r v) := by
  cases r with
  | tx j => exact .intro hs rfl (wf_setTx _ hr hs.2)
  | rx j => exact .intro hs rfl (wf_setRx _ hr hs.2)
  | _ => exact .intro hs rfl hs.2

theorem hostWrite_keepsForm {s t : State} {r : Reg} {v : Word} (hs : MemoryForm s)
    (hr : RegInMap s.params r) (h : hostWrite s v r = .next t) : KeepsForm s t := by
  unfold hostWrite at h
  split at h
  · exact runCommandWord_keepsForm hs h
  · cases h
    exact writeReg_keepsForm v hs hr

theorem runInput_keepsForm {s t : State} {m : Input} (hs : MemoryForm s)
    (h : runInput s m = .next t) : KeepsForm s t := by
  cases m with
  | read addr size =>
    rcases hostAccess_cases s addr size (hostRead s) with ⟨-, ha⟩ | ⟨-, -, ha⟩ | ⟨-, -, ha⟩ <;>
      cases ha.symm.trans h
    exact .intro hs rfl hs.2
  | write addr size v =>
    rcases hostAccess_cases s addr size (hostWrite s v) with ⟨-, ha⟩ | ⟨-, -, ha⟩ | ⟨-, -, ha⟩
    · cases ha.symm.trans h
    · cases ha.symm.trans h
    · exact hostWrite_keepsForm hs (regInMap_regAt ..) (ha.symm.trans h)
  | transmitHandOff | captureHandOff =>
    cases h
    exact .intro hs rfl hs.2
  | reset =>
    cases h
    exact .intro hs rfl (wf_empty _)

theorem step_nil {s : State} (h : s.inputs = []) : step s = .next s := by
  simp only [step, runNextInput, h]

theorem step_cons {s : State} {m : Input} {rest : List Input} (h : s.inputs = m :: rest) :
    step s = runInput { s with inputs := rest } m := by
  simp only [step, runNextInput, h]

/-- Settles O19: each kind of input keeps the form, because a command stores no sequence longer than
the buffer it stores to, and the map names no entry at or beyond a capacity. -/
theorem stepKeepsMemoryForm : Obligations.StepKeepsMemoryForm := by
  intro s t hs h
  cases hin : s.inputs with
  | nil =>
    cases (step_nil hin).symm.trans h
    exact ⟨hs, rfl⟩
  | cons m rest =>
    rw [step_cons hin] at h
    exact runInput_keepsForm (s := { s with inputs := rest }) hs h

/-- Settles O18. -/
theorem memoryFormAtReset : Obligations.MemoryFormAtReset :=
  ⟨by decide, wf_empty _⟩

/-- Settles O51, register by register from the `Completes` relation; an abandoned command writes only
ERR. -/
theorem commandsWriteOnlyTheirRegisters : Obligations.CommandsWriteOnlyTheirRegisters := by
  intro i s
  rcases exec_cases i s with ⟨u, hu, hx⟩ | ⟨e, -, hx⟩ <;> refine ⟨_, hx, ?_⟩
  · have hf := hu.frame
    refine ⟨?_, ?_, ?_, ?_, ?_, ?_, ?_, hu.cfg_hostFields.1, hu.cfg_hostFields.2, ?_, ?_, ?_, ?_, ?_,
      hu.of_cfg_ne, hu.of_result_ne, hu.of_transmit_ne, hu.of_capture_ne, hu.of_candidates_ne⟩ <;>
      rw [hf] <;> rfl
  · simp

end Sys2Proof.Machine
end

section
/-! PROOFS. What no command reads (R46, R43, R44): bodies on two states that differ only in STATUS, or
only in entries at or beyond the lengths. -/

namespace Sys2Proof.Machine

open Sys2Proof.Spec

/-! ## The encoders' bodies -/

/-- MENC's last step (R95): TX_OVERFLOW, or the sequence in TXBUF and its length in TXLEN. -/
def State.storeEncoded (s : State) (seq : List Nat) : Except ErrCode State :=
  if txOverflows s.params.txCap seq then .error .txOverflow
  else .ok { s.storeTx seq with txLen := BitVec.ofNat 16 seq.length }

theorem mencBody_eq (s : State) :
    mencBody s = if s.badEncodeArgs then .error .badArg
      else encodeBits s.codeIn s.bits.toNat (s.txSeq s.txLen.toNat) >>= s.storeEncoded := rfl

/-! ## STATUS -/

/-- `s` with other contents of STATUS (R17). -/
def State.withStatus (s : State) (e : ErrCode) (b : Bool) : State := { s with err := e, nocons := b }

section
variable (s : State) (e : ErrCode) (b : Bool)

theorem storeEncoded_withStatus (seq : List Nat) :
    (s.withStatus e b).storeEncoded seq = (s.storeEncoded seq).map (·.withStatus e b) := by
  change (if txOverflows s.params.txCap seq then _ else _) = _
  unfold State.storeEncoded
  split <;> rfl

theorem mencBody_withStatus : mencBody (s.withStatus e b) = (mencBody s).map (·.withStatus e b) := by
  rw [mencBody_eq s]
  change (if s.badEncodeArgs then _
    else encodeBits s.codeIn s.bits.toNat (s.txSeq s.txLen.toNat) >>= _) = _
  split
  · rfl
  · cases encodeBits s.codeIn s.bits.toNat (s.txSeq s.txLen.toNat) with
    | error _ => rfl
    | ok seq => exact storeEncoded_withStatus s e b seq

theorem frencBody_withStatus (n : Bool) :
    frencBody n (s.withStatus e b) = (frencBody n s).map (·.withStatus e b) := by
  change (frame (pack s.cfg n) >>= _) = (frame (pack s.cfg n) >>= _).map _
  cases frame (pack s.cfg n) <;> rfl

/-- On another STATUS a body raises the same error or leaves the same state but for STATUS, and NOCONS
is the same too where the command votes. -/
theorem bodyOf_withStatus (i : Instr) :
    bodyOf i (s.withStatus e b)
      = (bodyOf i s).map fun u => u.withStatus e (if votes i then u.nocons else b) := by
  cases i with
  | nop | fenc | fencN | fdec | vote => rfl
  | menc => exact mencBody_withStatus s e b
  | frenc => exact frencBody_withStatus s e b false
  | frencN => exact frencBody_withStatus s e b true
  | norm =>
    change (if s.badCaptureArgs then _ else _) = (if s.badCaptureArgs then _ else _ : Except _ _).map _
    split <;> rfl
  | mdec =>
    change (if s.badWindowArgs then _ else _) = (if s.badWindowArgs then _ else _ : Except _ _).map _
    split <;> rfl
  | frdec =>
    change frdecBody _ = (frdecBody s).map _
    rw [frdecBody_eq s]
    change (if s.badCaptureArgs then _ else _) = _
    split <;> rfl
  | rx =>
    change rxBody _ = (rxBody s).map _
    rw [rxBody_eq, rxBody_eq]
    change (if s.badCaptureArgs then _ else _) = _
    split <;> rfl

end

/-- Settles O53: the bodies do not read STATUS, and an abandoned command leaves NOCONS as it was. -/
theorem noCommandReadsStatus : Obligations.NoCommandReadsStatus := by
  intro i s e b
  change ∃ t, exec i s = .next t ∧ exec i (s.withStatus e b) = .next _
  simp only [exec_eq_finish, bodyOf_withStatus]
  cases hb : bodyOf i s with
  | ok u =>
    refine ⟨_, rfl, ?_⟩
    cases votes i <;> rfl
  | error e' =>
    refine ⟨_, rfl, ?_⟩
    rw [if_neg (fun h => bodyOf_error_ne_ok hb h.2)]
    rfl

/-! ## Entries at or beyond the lengths -/

/-- The two states have the same registers and the same valid entries. -/
def AgreeOnValid (s s' : State) : Prop :=
  s' = { s with mem := s'.mem }
  ∧ (∀ j, j < s.txLen.toNat → s'.txAt j = s.txAt j)
  ∧ (∀ j, j < s.rxLen.toNat → s'.rxAt j = s.rxAt j)

/-- Two bodies end alike: with the same error, or in states that agree on all that is valid. -/
inductive EndAlike : Except ErrCode State → Except ErrCode State → Prop where
  | error (e : ErrCode) : EndAlike (.error e) (.error e)
  | ok {u u' : State} : AgreeOnValid u u' → EndAlike (.ok u) (.ok u')

section
variable {s : State} {m : Memory}

theorem AgreeOnValid.txSeq_eq (h : AgreeOnValid s { s with mem := m }) :
    State.txSeq { s with mem := m } s.txLen.toNat = s.txSeq s.txLen.toNat :=
  State.txSeq_congr h.2.1

theorem AgreeOnValid.rxSeq_eq (h : AgreeOnValid s { s with mem := m }) {n : Nat}
    (hn : n ≤ s.rxLen.toNat) : State.rxSeq { s with mem := m } n = s.rxSeq n :=
  State.rxSeq_congr fun j hj => h.2.2 j (hj.trans_le hn)

theorem AgreeOnValid.normalised_eq (h : AgreeOnValid s { s with mem := m }) :
    State.normalised { s with mem := m } = s.normalised :=
  congrArg (List.map (normFn s.tickUs.toNat s.unitUs.toNat)) (h.rxSeq_eq (Nat.le_refl _))

/-- A sequence stored with its length in TXLEN leaves the same valid entries. -/
theorem AgreeOnValid.storeTx (h : AgreeOnValid s { s with mem := m }) (seq : List Nat) :
    AgreeOnValid { s.storeTx seq with txLen := BitVec.ofNat 16 seq.length }
      { State.storeTx { s with mem := m } seq with txLen := BitVec.ofNat 16 seq.length } := by
  refine ⟨rfl, fun j hj => ?_, h.2.2⟩
  have hlt : j < seq.length := lt_of_lt_of_le hj (by simpa using Nat.mod_le _ _)
  change (State.storeTx { s with mem := m } seq).txAt j = (s.storeTx seq).txAt j
  rw [State.txAt_storeTx, State.txAt_storeTx, dif_pos hlt, dif_pos hlt]

/-- One sequence stored into both RXBUFs leaves the same valid entries. -/
theorem AgreeOnValid.storeRx (h : AgreeOnValid s { s with mem := m }) (units : List Nat) :
    AgreeOnValid (s.storeRx units) (State.storeRx { s with mem := m } units) := by
  refine ⟨rfl, h.2.1, fun j hj => ?_⟩
  rw [State.rxAt_storeRx, State.rxAt_storeRx, h.2.2 j hj]

theorem AgreeOnValid.mencBody (h : AgreeOnValid s { s with mem := m }) :
    EndAlike (mencBody s) (mencBody { s with mem := m }) := by
  rw [mencBody_eq, mencBody_eq]
  simp only [h.txSeq_eq]
  change EndAlike _ (if s.badEncodeArgs then _ else _)
  split
  · exact .error _
  · cases encodeBits s.codeIn s.bits.toNat (s.txSeq s.txLen.toNat) with
    | error e => exact .error e
    | ok seq =>
      change EndAlike (if txOverflows s.params.txCap seq then _ else _)
        (if txOverflows s.params.txCap seq then _ else _)
      split
      · exact .error _
      · exact .ok (h.storeTx seq)

theorem AgreeOnValid.frencBody (h : AgreeOnValid s { s with mem := m }) (n : Bool) :
    EndAlike (frencBody n s) (frencBody n { s with mem := m }) := by
  change EndAlike (frame (pack s.cfg n) >>= _) (frame (pack s.cfg n) >>= _)
  cases frame (pack s.cfg n) with
  | error e => exact .error e
  | ok seq =>
    obtain ⟨-, htx, hrx⟩ := h.storeTx seq
    exact .ok ⟨rfl, htx, hrx⟩

theorem AgreeOnValid.mdecBody (h : AgreeOnValid s { s with mem := m }) :
    EndAlike (mdecBody s) (mdecBody { s with mem := m }) := by
  change EndAlike (if s.badWindowArgs then _ else _) (if s.badWindowArgs then _ else _)
  split
  · exact .error _
  · next hw =>
    have hend : s.endIdx.toNat ≤ s.rxLen.toNat := by
      have := mt (badWindowArgs_iff s).2 hw
      omega
    rw [h.rxSeq_eq hend]
    obtain ⟨-, htx, hrx⟩ :=
      h.storeRx (mdecFn (s.rxSeq s.endIdx.toNat) s.start.toNat s.endIdx.toNat).2
    exact .ok ⟨rfl, htx, hrx⟩

theorem AgreeOnValid.withFrame (h : AgreeOnValid s { s with mem := m }) (f : FrameResult) :
    AgreeOnValid (s.withFrame f) (State.withFrame { s with mem := m } f) := by
  obtain ⟨-, htx, hrx⟩ := h.storeRx f.units
  exact ⟨rfl, htx, hrx⟩

/-- Bodies on two states that agree on all that is valid end alike. -/
theorem AgreeOnValid.bodyOf (h : AgreeOnValid s { s with mem := m }) (i : Instr) :
    EndAlike (bodyOf i s) (bodyOf i { s with mem := m }) := by
  cases i with
  | nop | fenc | fencN | fdec | vote => exact .ok ⟨rfl, h.2.1, h.2.2⟩
  | menc => exact h.mencBody
  | frenc => exact h.frencBody false
  | frencN => exact h.frencBody true
  | mdec => exact h.mdecBody
  | norm =>
    change EndAlike (if s.badCaptureArgs then _ else _)
      (if s.badCaptureArgs then _ else .ok (State.storeRx _ (State.normalised _)))
    rw [h.normalised_eq]
    split
    · exact .error _
    · exact .ok (h.storeRx _)
  | frdec =>
    change EndAlike (if s.badCaptureArgs then _ else _)
      (if s.badCaptureArgs then _ else .ok (State.withFrame _ (frameDec (State.normalised _) _)))
    rw [h.normalised_eq]
    split
    · exact .error _
    · exact .ok (h.withFrame _)
  | rx =>
    change EndAlike (rxBody _) (rxBody _)
    rw [rxBody_eq, rxBody_eq, h.normalised_eq]
    change EndAlike (if s.badCaptureArgs then _ else _) (if s.badCaptureArgs then _ else _)
    split
    · exact .error _
    · obtain ⟨-, htx, hrx⟩ := h.withFrame (frameDec s.normalised s.rxLen.toNat)
      exact .ok ⟨rfl, htx, hrx⟩

end

/-- The end of a command touches only ERR, so it keeps the agreement. -/
theorem EndAlike.finish {s s' : State} {body body' : Except ErrCode State}
    (hb : EndAlike body body') (h : AgreeOnValid s s') :
    ∃ t t', finish s body = .next t ∧ finish s' body' = .next t' ∧ AgreeOnValid t t' := by
  cases hb with
  | error e => exact ⟨_, _, rfl, rfl, by rw [h.1]; rfl, h.2.1, h.2.2⟩
  | ok hu => exact ⟨_, _, rfl, rfl, by rw [hu.1]; rfl, hu.2.1, hu.2.2⟩

/-- Settles O54: the bodies end alike, and so do the commands. -/
theorem entriesBeyondTheLengthsAreNotRead : Obligations.EntriesBeyondTheLengthsAreNotRead := by
  intro i s s' hs htx hrx
  obtain ⟨m, rfl⟩ : ∃ m, s' = { s with mem := m } := ⟨_, hs⟩
  have h : AgreeOnValid s { s with mem := m } := ⟨rfl, htx, hrx⟩
  simp only [exec_eq_finish]
  exact (h.bodyOf i).finish h

end Sys2Proof.Machine
end

section
/-! PROOFS. The command word and the step that issues it (R16, R66, R67), NOCONS (R19), and what the
duties give a command (R131). -/

namespace Sys2Proof.Machine

open Sys2Proof.Spec Sys2Proof.Safety

/-! ## Command words -/

theorem decode_encode (i : Instr) : decode (encode i) = .ok i := by
  cases i <;> rfl

/-- A legal word has RSV 0, so it is one of 32 words (R64, R68). -/
theorem toNat_lt_of_decode {w : Word} {i : Instr} (h : decode w = .ok i) : w.toNat < 32 := by
  unfold decode at h
  by_cases hr : (fieldsOfWord w).reservedClear
  · have hz : (w.extractLsb' 5 27).toNat = 0 := by
      rw [show w.extractLsb' 5 27 = 0#27 by simpa [CommandFields.reservedClear, fieldsOfWord] using hr]
      rfl
    rw [BitVec.extractLsb'_toNat, Nat.shiftRight_eq_div_pow] at hz
    have := w.isLt
    omega
  · simp only [hr] at h
    cases h

/-- No bit of a legal word is dropped (R66, R68). -/
theorem eq_encode_of_decode {w : Word} {i : Instr} (h : decode w = .ok i) : w = encode i := by
  have short : ∀ k : Fin 32, (match decode (BitVec.ofNat 32 k) with
    | .ok j => BitVec.ofNat 32 k == encode j
    | .error _ => true) = true := by decide
  have hk := short ⟨w.toNat, toNat_lt_of_decode h⟩
  simp only [BitVec.ofNat_toNat, BitVec.setWidth_eq, h, beq_iff_eq] at hk
  exact hk

theorem runCommandWord_encode (s : State) (i : Instr) : runCommandWord s (encode i) = exec i s := by
  simp only [runCommandWord, decode_encode]

/-! ## The step that writes CMD -/

@[simp] theorem regAt_zero (p : Config.Params) : regAt p 0 = .cmd := by
  simp [regAt]

/-- An admitted write whose address is CMD's runs its word (R16, R67). -/
theorem step_commandWrite {s : State} {addr size : Nat} {w : Word} {rest : List Input}
    (hin : s.inputs = .write addr size w :: rest) (ha : accessAdmitted addr size = true)
    (hs : inRegisterSpace s.params addr = true)
    (hr : regAt s.params (addr - s.params.eccBase) = .cmd) :
    step s = runCommandWord { s with inputs := rest } w := by
  rw [step_cons hin]
  simp only [runInput, hostAccess, ha, hs, hr, not_true_eq_false, ite_false, hostWrite]

theorem step_commandAtBase {s : State} {w : Word} {rest : List Input}
    (hb : s.params.eccBase % 4 = 0) (hin : s.inputs = .write s.params.eccBase 4 w :: rest) :
    step s = runCommandWord { s with inputs := rest } w :=
  step_commandWrite hin (by simp [accessAdmitted, hb]) (by simp [inRegisterSpace]) (by simp)

/-- Settles O4. -/
theorem commandWriteRunsTheCommand : Obligations.CommandWriteRunsTheCommand := by
  intro s w rest hb hin
  rw [step_commandAtBase hb hin]
  unfold runCommandWord
  exact ⟨fun i hi => by rw [hi], fun e he => by rw [he]; rfl⟩

/-- A move that issues a command runs it on the state without that move. -/
theorem step_issuedCommand {s : State} {m : Input} {rest : List Input} {i : Instr}
    (hi : issuedCommand s.params m = some i) (hin : s.inputs = m :: rest) :
    step s = exec i { s with inputs := rest } := by
  obtain ⟨addr, size, w, rfl, ha, hs, hr, hd⟩ := issuedCommand_eq hi
  rw [step_commandWrite hin ha hs hr]
  simp only [runCommandWord, hd]

/-! ## NOCONS -/

/-- Settles O50: a completed vote writes NOCONS from its RESULT; other completed commands, abandoned
ones and illegal words leave it. -/
theorem noconsMirrorsAZeroVote : Obligations.NoconsMirrorsAZeroVote := by
  intro s w
  cases hd : decode w with
  | error e =>
    have hne : ∀ i, w ≠ encode i := by
      rintro i rfl
      cases (decode_encode i).symm.trans hd
    refine ⟨s.raise .illegalOp, by simp only [runCommandWord, hd], ?_, fun _ => rfl⟩
    rintro ⟨i, hw, -⟩
    exact absurd hw (hne i)
  | ok i =>
    cases eq_encode_of_decode hd
    have inj : ∀ j, encode i = encode j → j = i := fun j hj => by
      cases (decode_encode i).symm.trans (hj ▸ decode_encode j)
      rfl
    rw [runCommandWord_encode]
    rcases exec_cases i s with ⟨u, hu, hx⟩ | ⟨e, he, hx⟩ <;> refine ⟨_, hx, ?_, fun hno => ?_⟩
    · rintro ⟨j, hj, hv, -⟩
      cases inj j hj
      simp [hu.nocons_eq, hv, noConsensus]
    · have hv : ¬ votes i = true := fun hv => hno ⟨i, rfl, hv, rfl⟩
      simp [hu.nocons_eq, hv]
    · rintro ⟨-, -, -, hok⟩
      exact absurd hok (bodyOf_error_ne_ok he)
    · rfl

/-! ## Words of fields as numbers -/

theorem toNat_field {v w k : Nat} (f : BitVec v) (h : v + k ≤ w) :
    (f.setWidth w <<< k).toNat = f.toNat * 2 ^ k := by
  have hlt : f.toNat * 2 ^ k < 2 ^ w :=
    calc f.toNat * 2 ^ k < 2 ^ v * 2 ^ k := Nat.mul_lt_mul_of_pos_right f.isLt (Nat.two_pow_pos k)
      _ = 2 ^ (v + k) := (Nat.pow_add ..).symm
      _ ≤ 2 ^ w := Nat.pow_le_pow_right (by decide) h
  have hf : f.toNat < 2 ^ w := (Nat.le_mul_of_pos_right _ (Nat.two_pow_pos k)).trans_lt hlt
  rw [BitVec.toNat_shiftLeft, BitVec.toNat_setWidth, Nat.mod_eq_of_lt hf, Nat.shiftLeft_eq,
    Nat.mod_eq_of_lt hlt]

/-- Or-ing a field to bits that are all below it or all above it adds its value at its place. -/
theorem toNat_or_field {v w k n : Nat} {x : BitVec w} {f : BitVec v} (hx : x.toNat = n)
    (hn : n < 2 ^ k ∨ n % 2 ^ (v + k) = 0) (h : v + k ≤ w) :
    (x ||| f.setWidth w <<< k).toNat = n + f.toNat * 2 ^ k := by
  rw [BitVec.toNat_or, toNat_field f h, hx]
  rcases hn with hlow | hhigh
  · rw [Nat.or_comm, Nat.mul_comm, ← Nat.two_pow_add_eq_or_of_lt hlow, Nat.add_comm]
  · have hlt : f.toNat * 2 ^ k < 2 ^ (v + k) := by
      rw [Nat.pow_add]
      exact Nat.mul_lt_mul_of_pos_right f.isLt (Nat.two_pow_pos k)
    rw [← Nat.div_add_mod n (2 ^ (v + k)), hhigh, Nat.add_zero, Nat.two_pow_add_eq_or_of_lt hlt]

theorem payload_toNat (c : Cfg) (n : Bool) : (payload c n).toNat = payloadValue c n := by
  have := c.temperature.isLt
  have := c.ifeelTemperature.isLt
  cases n <;> simp [payload, payloadValue, BitVec.toNat_sub] <;> omega

/-- PACK's word is the sum of its fields at their places (R82). -/
theorem pack_toNat (c : Cfg) (n : Bool) : (pack c n).toNat = packedValue c n := by
  have hmode := c.mode.isLt
  have hfan := c.fan.isLt
  have hpay := (payload c n).isLt
  have hbit (b : Bool) : (BitVec.ofBool b).toNat < 2 := (BitVec.ofBool b).isLt
  have h₃₃ := toNat_field (k := 33) (w := 64) (BitVec.ofBool (powerField c)) (by decide)
  have h₃₀ := toNat_or_field (k := 30) (f := c.mode) h₃₃ (by omega) (by decide)
  have h₂₈ := toNat_or_field (k := 28) (f := c.fan) h₃₀ (by omega) (by decide)
  have h₂₇ := toNat_or_field (k := 27) (f := BitVec.ofBool n) h₂₈ (by omega) (by decide)
  have h₂₅ := toNat_or_field (k := 25) (f := BitVec.ofBool c.swing) h₂₇ (by omega) (by decide)
  have h₂₄ := toNat_or_field (k := 24) (f := BitVec.ofBool c.ifeel) h₂₅ (by omega) (by decide)
  have h₁₉ := toNat_or_field (k := 19) (f := payload c n) h₂₄ (by omega) (by decide)
  have h₁₈ := toNat_or_field (k := 18) (f := BitVec.ofBool c.sleep) h₁₉ (by omega) (by decide)
  have h₁ := toNat_or_field (k := 1) (f := 1#1) h₁₈ (by omega) (by decide)
  refine h₁.trans ?_
  have hpower : (powerField c).toNat = if c.powerSetting = c.powerReal then 0 else 1 := by
    unfold powerField
    cases c.powerSetting <;> cases c.powerReal <;> rfl
  simp only [packedValue, ← payload_toNat, ← hpower, BitVec.toNat_ofBool]
  rfl

theorem payloadValue_lt (c : Cfg) (n : Bool) : payloadValue c n < if n then 32 else 16 := by
  cases n
  · simp only [payloadValue, Bool.false_eq_true, ite_false]
    omega
  · simp only [payloadValue, ite_true]
    omega

/-- R72: a code packed from a record whose mode names a mode is well formed. -/
theorem wellFormedCode_pack {c : Cfg} (n : Bool) (h : modeInRange c = true) :
    WellFormedCode (pack c n) := by
  simp only [modeInRange, Bool.and_eq_true, decide_eq_true_eq] at h
  have hfan := c.fan.isLt
  have hpay := payloadValue_lt c n
  have hswing := c.swing.toNat_le
  have hifeel := c.ifeel.toNat_le
  have hsleep := c.sleep.toNat_le
  have hpower : (if c.powerSetting = c.powerReal then 0 else 1) ≤ 1 := by split <;> decide
  simp only [WellFormedCode, bitOf, fieldOf, pack_toNat, packedValue]
  generalize (if c.powerSetting = c.powerReal then 0 else 1) = power at hpower ⊢
  cases n <;>
    simp only [Bool.toNat_true, Bool.toNat_false, ite_true, Bool.false_eq_true, ite_false] at hpay ⊢ <;>
    omega

/-! ## The host's duties -/

/-- The field encoders leave the packed code in RESULT, and need only CFG's mode in range (R72,
R131.4). -/
theorem wellFormedCode_of_encoder {i : Instr} {s u : State} (h : Completes s i u)
    (hi : i = .fenc ∨ i = .fencN ∨ i = .frenc ∨ i = .frencN)
    (hr : encodesInRange s.cfg i = true) : WellFormedCode u.result := by
  have hmode : modeInRange s.cfg = true := by
    rcases hi with rfl | rfl | rfl | rfl <;> exact (Bool.and_eq_true_iff.1 hr).1
  cases h with
  | fenc | frenc => exact wellFormedCode_pack false hmode
  | fencN | frencN => exact wellFormedCode_pack true hmode
  | _ => simp at hi

/-- Settles O56: the duties rule out each cause of an error but the two the statement excepts. -/
theorem dutifulDecodesAndFieldEncodesSucceed : Obligations.DutifulDecodesAndFieldEncodesSucceed := by
  intro mon s m rest i hmay hi hin
  obtain ⟨-, -, hcapture, htick, -, hrange⟩ := hostMay_command hmay hi
  rw [step_issuedCommand hi hin]
  rcases exec_cases i { s with inputs := rest } with ⟨u, hu, hx⟩ | ⟨e, he, hx⟩ <;>
    refine ⟨_, hx, ?_⟩
  · have hwf := wellFormedCode_of_encoder hu
    exact ⟨fun _ _ => rfl, fun _ _ => rfl, fun henc => ⟨rfl, hwf henc hrange⟩⟩
  · rcases bodyOf_error he with ⟨rfl, -⟩ | ⟨rfl, hbad, -⟩ | ⟨hcmd, hbad, -⟩
    · simp
    · have hfits := captureLoaded_fits (hcapture rfl)
      refine ⟨by simp, fun _ hend => ?_, by simp⟩
      rcases (badWindowArgs_iff _).1 hbad with hlong | hbeyond
      · exact absurd hfits (Nat.not_le.2 hlong)
      · exact absurd hend (Nat.not_le.2 hbeyond)
    · have hreads : readsCapture i = true ∧ usesTick i = true := by
        rcases hcmd with rfl | rfl | rfl <;> exact ⟨rfl, rfl⟩
      refine ⟨fun _ hunit => ?_, by rcases hcmd with rfl | rfl | rfl <;> simp⟩
      rcases (badCaptureArgs_iff _).1 hbad with hzero | hzero | hlong
      · exact absurd hzero (htick hreads.2)
      · exact absurd hzero hunit
      · exact absurd (captureLoaded_fits (hcapture hreads.1)) (Nat.not_le.2 hlong)

end Sys2Proof.Machine
end

section
/-! PROOFS. The words of the registers (R16 to R44, R49, R53): what a read gives, what a write stores, and
that no write shows in another register. -/

namespace Sys2Proof.Machine

open Sys2Proof.Spec

/-! ## The halves of a 64-bit register (R53) -/

theorem loWord_toNat (c : Code) : (loWord c).toNat = lowerWord c := by
  simp [loWord, lowerWord, BitVec.extractLsb'_toNat]

theorem hiWord_toNat (c : Code) : (hiWord c).toNat = upperWord c := by
  have := c.isLt
  simp only [hiWord, upperWord, BitVec.extractLsb'_toNat, Nat.shiftRight_eq_div_pow]
  omega

theorem append_toNat (x y : Word) : (x ++ y).toNat = x.toNat * 2 ^ 32 + y.toNat := by
  rw [BitVec.toNat_append, ← Nat.shiftLeft_add_eq_or_of_lt y.isLt, Nat.shiftLeft_eq]

theorem setLoWord_eq (c : Code) (v : Word) : setLoWord c v = withLower c v := by
  rw [setLoWord, withLower, ← hiWord_toNat, ← append_toNat, BitVec.ofNat_toNat, BitVec.setWidth_eq]

theorem setHiWord_eq (c : Code) (v : Word) : setHiWord c v = withUpper c v := by
  rw [setHiWord, withUpper, ← loWord_toNat, ← append_toNat, BitVec.ofNat_toNat, BitVec.setWidth_eq]

/-! ## STATUS and CFG (R17, R29) -/

theorem statusWord_toNat (s : State) : (statusWord s.err s.nocons).toNat = statusValue s := by
  have key : ∀ e b, (statusWord e b).toNat = (errBits e).toNat + 8 * b.toNat := by
    intro e b
    cases e <;> cases b <;> rfl
  rw [key, statusValue]
  cases s.err <;> rfl

theorem cfgWord_toNat (c : Cfg) : (cfgWord c).toNat = cfgValue c := by
  have hmode := c.mode.isLt
  have hfan := c.fan.isLt
  have htemp := c.temperature.isLt
  have hbit (b : Bool) : (BitVec.ofBool b).toNat < 2 := (BitVec.ofBool b).isLt
  have hps := hbit c.powerSetting
  have hpr := hbit c.powerReal
  have hsw := hbit c.swing
  have hsh := hbit c.swingH
  have hsl := hbit c.sleep
  have hif := hbit c.ifeel
  have h₀ : ((BitVec.ofBool c.powerSetting).setWidth 32).toNat = (BitVec.ofBool c.powerSetting).toNat :=
    BitVec.toNat_setWidth_of_le (by decide)
  have h₁ := toNat_or_field (k := 1) (f := BitVec.ofBool c.powerReal) h₀ (by omega) (by decide)
  have h₂ := toNat_or_field (k := 2) (f := c.mode) h₁ (by omega) (by decide)
  have h₅ := toNat_or_field (k := 5) (f := c.fan) h₂ (by omega) (by decide)
  have h₇ := toNat_or_field (k := 7) (f := BitVec.ofBool c.swing) h₅ (by omega) (by decide)
  have h₈ := toNat_or_field (k := 8) (f := BitVec.ofBool c.swingH) h₇ (by omega) (by decide)
  have h₉ := toNat_or_field (k := 9) (f := BitVec.ofBool c.sleep) h₈ (by omega) (by decide)
  have h₁₀ := toNat_or_field (k := 10) (f := BitVec.ofBool c.ifeel) h₉ (by omega) (by decide)
  have h₁₆ := toNat_or_field (k := 16) (f := c.temperature) h₁₀ (by omega) (by decide)
  have h₂₄ := toNat_or_field (k := 24) (f := c.ifeelTemperature) h₁₆ (by omega) (by decide)
  refine h₂₄.trans ?_
  simp only [cfgValue, BitVec.toNat_ofBool]
  omega

/-- Settles O12. -/
theorem registerWordsHaveTheirFields : Obligations.RegisterWordsHaveTheirFields := by
  intro s r
  cases r with
  | cmd | reserved | rx => rfl
  | status => exact statusWord_toNat s
  | cfg => exact cfgWord_toNat s.cfg
  | codeInLo | resultLo | rep0Lo | rep1Lo | rep2Lo => exact loWord_toNat _
  | codeInHi | resultHi | rep0Hi | rep1Hi | rep2Hi => exact hiWord_toNat _
  | bits | start | endIdx | txLen | rxLen | tickUs | unitUs | repCount | tx =>
    exact BitVec.toNat_setWidth_of_le (by decide)

/-! ## Writes -/

theorem cfgOfWord_eq (v : Word) : cfgOfWord v = cfgStored v := by
  have bit (k : Nat) : v.getLsbD k = (v.toNat / 2 ^ k % 2 ^ 1 == 1) := by
    rw [BitVec.getLsbD, Nat.testBit_eq_decide_div_mod_eq]
    rfl
  have field (k n : Nat) : v.extractLsb' k n = BitVec.ofNat n (v.toNat / 2 ^ k % 2 ^ n) := by
    apply BitVec.eq_of_toNat_eq
    simp [BitVec.extractLsb'_toNat, Nat.shiftRight_eq_div_pow]
  simp only [cfgOfWord, cfgStored, bit, field, Nat.reduceAdd, Nat.reduceSub]

/-- Settles O13. -/
theorem registerWritesStoreTheirFields : Obligations.RegisterWritesStoreTheirFields := by
  intro s r v
  cases r with
  | cmd | status | resultLo | resultHi | repCount | reserved => rfl
  | codeInLo | rep0Lo | rep1Lo | rep2Lo => simp only [StoresTo, writeReg, setLoWord_eq]
  | codeInHi | rep0Hi | rep1Hi | rep2Hi => simp only [StoresTo, writeReg, setHiWord_eq]
  | cfg => simp only [StoresTo, writeReg, cfgOfWord_eq]
  | bits | start | endIdx | txLen | rxLen | tickUs | unitUs => rfl
  | tx j =>
    refine ⟨rfl, ?_, fun k hk => ?_⟩
    · simp [writeReg, State.txAt_setTx]
    · exact (State.txAt_setTx ..).trans (if_neg hk)
  | rx j =>
    refine ⟨rfl, ?_, fun k hk => ?_⟩
    · exact (State.rxAt_setRx ..).trans (if_pos rfl)
    · exact (State.rxAt_setRx ..).trans (if_neg hk)

/-! ## Reads after writes (R49) -/

/-- The bits of a word that an `n`-bit field stores are those its mask keeps. -/
theorem and_fieldMask (v : Word) (k n : Nat) :
    v &&& (BitVec.allOnes n).setWidth 32 <<< k = (v.extractLsb' k n).setWidth 32 <<< k := by
  ext i hi
  by_cases hk : k ≤ i
  · simp [Nat.not_lt.2 hk, Nat.add_sub_of_le hk, hi, Bool.and_comm]
  · simp [Nat.lt_of_not_le hk]

theorem setWidth_setWidth_eq_and (v : Word) (n : Nat) :
    (v.setWidth n).setWidth 32 = v &&& (BitVec.allOnes n).setWidth 32 := by
  ext i hi
  simp [hi, Bool.and_comm]

theorem ofBool_getLsbD (v : Word) (k : Nat) : BitVec.ofBool (v.getLsbD k) = v.extractLsb' k 1 := by
  ext i hi
  simp [show i = 0 by omega]

theorem cfgWord_cfgOfWord (v : Word) : cfgWord (cfgOfWord v) = v &&& 0x3F3F07FF := by
  have hmask : (0x3F3F07FF : Word) =
      (BitVec.allOnes 1).setWidth 32 <<< 0 ||| (BitVec.allOnes 1).setWidth 32 <<< 1
        ||| (BitVec.allOnes 3).setWidth 32 <<< 2 ||| (BitVec.allOnes 2).setWidth 32 <<< 5
        ||| (BitVec.allOnes 1).setWidth 32 <<< 7 ||| (BitVec.allOnes 1).setWidth 32 <<< 8
        ||| (BitVec.allOnes 1).setWidth 32 <<< 9 ||| (BitVec.allOnes 1).setWidth 32 <<< 10
        ||| (BitVec.allOnes 6).setWidth 32 <<< 16 ||| (BitVec.allOnes 6).setWidth 32 <<< 24 := by
    decide
  rw [hmask]
  simp only [BitVec.and_or_distrib_left, and_fieldMask]
  simp only [BitVec.shiftLeft_zero, cfgWord, cfgOfWord, ofBool_getLsbD]

theorem readReg_writeReg_same (s : State) (r : Reg) (v m : Word) (h : storedBits r = some m) :
    readReg (writeReg s r v) r = v &&& m := by
  have hall : v &&& 0xFFFFFFFF = v := BitVec.and_allOnes
  cases r with
  | cmd | status | resultLo | resultHi | repCount | reserved => cases h
  | codeInLo | rep0Lo | rep1Lo | rep2Lo =>
    cases h
    exact (loWord_setLoWord _ v).trans hall.symm
  | codeInHi | rep0Hi | rep1Hi | rep2Hi =>
    cases h
    exact (hiWord_setHiWord _ v).trans hall.symm
  | bits =>
    cases h
    exact setWidth_setWidth_eq_and v 7
  | start | endIdx | txLen | rxLen | tickUs | unitUs =>
    cases h
    exact setWidth_setWidth_eq_and v 16
  | cfg =>
    cases h
    exact cfgWord_cfgOfWord v
  | tx j =>
    cases h
    change ((s.setTx j _).txAt j).setWidth 32 = _
    rw [State.txAt_setTx, if_pos rfl]
    exact setWidth_setWidth_eq_and v 16
  | rx j =>
    cases h
    exact ((State.rxAt_setRx ..).trans (if_pos rfl)).trans hall.symm

/-- No write shows in another register: each field has its own register, a 64-bit register keeps its
other half (R53), and a buffer its other entries. -/
theorem readReg_writeReg_ne (s : State) {r r' : Reg} (v : Word) (h : r' ≠ r) :
    readReg (writeReg s r v) r' = readReg s r' := by
  cases r with
  | cmd | status | resultLo | resultHi | repCount | reserved => rfl
  | codeInLo | rep0Lo | rep1Lo | rep2Lo =>
    cases r' <;> simp_all [readReg, writeReg, hiWord_setLoWord, State.txAt, State.rxAt]
  | codeInHi | rep0Hi | rep1Hi | rep2Hi =>
    cases r' <;> simp_all [readReg, writeReg, loWord_setHiWord, State.txAt, State.rxAt]
  | bits | start | endIdx | txLen | rxLen | tickUs | unitUs | cfg =>
    cases r' <;> simp_all [readReg, writeReg, State.txAt, State.rxAt]
  | tx j => cases r' <;> simp_all [readReg, writeReg, State.txAt_setTx, State.rxAt]
  | rx j => cases r' <;> simp_all [readReg, writeReg, State.txAt, State.rxAt_setRx]

/-- Settles O11. -/
theorem writtenRegistersReadBack : Obligations.WrittenRegistersReadBack := by
  intro s r v
  refine ⟨readReg_writeReg_same s r v, fun h => ?_, fun _ => readReg_writeReg_ne s v⟩
  cases r with
  | cmd | status | resultLo | resultHi | repCount | reserved => rfl
  | _ => cases h

end Sys2Proof.Machine
end

section
/-! PROOFS. Host accesses (R47 to R52): where each outcome of an access comes from, and the address map
read in both directions (R49, R50). -/

namespace Sys2Proof.Machine

open Sys2Proof.Spec

/-! ## Every command ends -/

/-- Settles O6: `finish` ends each command with a next state. -/
theorem everyCommandEnds : Obligations.EveryCommandEnds := by
  intro i s
  rw [exec_eq_finish]
  exact finish_next ..

theorem runCommandWord_next (s : State) (w : Word) : ∃ t, runCommandWord s w = .next t := by
  unfold runCommandWord
  split
  · exact everyCommandEnds ..
  · exact ⟨_, rfl⟩

theorem hostWrite_eq_writeReg {r : Reg} (hr : r ≠ .cmd) (s : State) (v : Word) :
    hostWrite s v r = .next (writeReg s r v) := by
  cases r with
  | cmd => exact absurd rfl hr
  | _ => rfl

theorem hostWrite_next (s : State) (v : Word) (r : Reg) : ∃ t, hostWrite s v r = .next t := by
  by_cases hr : r = .cmd
  · subst hr
    exact runCommandWord_next s v
  · exact ⟨_, hostWrite_eq_writeReg hr s v⟩

/-! ## The three outcomes of an access -/

section
variable {s : State} {addr size : Nat} (access : Reg → Host.Outcome State Fault Refusal)

theorem hostAccess_refused (h : ¬ (size = 4 ∧ addr % 4 = 0)) :
    hostAccess s addr size access = .refused .accessNotAdmitted := by
  rcases hostAccess_cases s addr size access with ⟨-, ha⟩ | ⟨hok, -⟩ | ⟨hok, -⟩
  · exact ha
  · exact absurd hok h
  · exact absurd hok h

theorem hostAccess_fault (h4 : addr % 4 = 0)
    (h : addr < s.params.eccBase ∨ s.params.eccBase + 0x10000 ≤ addr) :
    hostAccess s addr 4 access = .fault .outsideRegisterSpace := by
  rcases hostAccess_cases s addr 4 access with ⟨hbad, -⟩ | ⟨-, -, ha⟩ | ⟨-, hin, -⟩
  · exact absurd ⟨rfl, h4⟩ hbad
  · exact ha
  · omega

theorem hostAccess_register (h4 : addr % 4 = 0) (hlo : s.params.eccBase ≤ addr)
    (hhi : addr < s.params.eccBase + 0x10000) :
    hostAccess s addr 4 access = access (regAt s.params (addr - s.params.eccBase)) := by
  rcases hostAccess_cases s addr 4 access with ⟨hbad, -⟩ | ⟨-, hout, -⟩ | ⟨-, -, ha⟩
  · exact absurd ⟨rfl, h4⟩ hbad
  · exact absurd ⟨hlo, hhi⟩ hout
  · exact ha

/-- An aligned access at an offset of the space is done at the register the map has there. -/
theorem hostAccess_offset {off : Nat} (hp : s.params.Valid) (h4 : off % 4 = 0)
    (hlt : off < 0x10000) :
    hostAccess s (s.params.eccBase + off) 4 access = access (regAt s.params off) := by
  obtain ⟨-, -, -, -, hbase⟩ := hp
  rw [hostAccess_register access (by omega) (by omega) (by omega), Nat.add_sub_cancel_left]

end

/-- Settles O7: the check of R52 comes before the window, and no register's read or write stops. -/
theorem onlyAlignedWordAccesses : Obligations.OnlyAlignedWordAccesses := by
  intro s addr size v rest
  refine ⟨fun hbad => ?_, ?_⟩
  · refine ⟨fun hin => ?_, fun hin => ?_⟩ <;> rw [step_cons hin]
    · exact hostAccess_refused _ hbad
    · exact hostAccess_refused _ hbad
  · rintro rfl h4 hlo hhi
    refine ⟨fun hin => ?_, fun hin => ?_⟩ <;> rw [step_cons hin]
    · exact ⟨_, hostAccess_register _ h4 hlo hhi⟩
    · obtain ⟨t, ht⟩ := hostWrite_next { s with inputs := rest } v
        (regAt s.params (addr - s.params.eccBase))
      exact ⟨t, (hostAccess_register _ h4 hlo hhi).trans ht⟩

/-- Settles O8: the access is admitted, so the window decides. -/
theorem accessOutsideTheSpaceFaults : Obligations.AccessOutsideTheSpaceFaults := by
  intro s addr v rest h4 hout
  refine ⟨fun hin => ?_, fun hin => ?_⟩ <;> rw [step_cons hin]
  · exact hostAccess_fault _ h4 hout
  · exact hostAccess_fault _ h4 hout

/-! ## The address map (R49) -/

section
variable {s : State} {off : Nat} {v : Word} {rest : List Input}

/-- The inputs still to come are in no register's word (log 6). -/
theorem readReg_withInputs (s : State) (rest : List Input) (r : Reg) :
    readReg { s with inputs := rest } r = readReg s r := by
  cases r <;> rfl

/-- A step that reads at an offset of the space gives the host the word the map has there. -/
theorem step_readOffset (hp : s.params.Valid) (h4 : off % 4 = 0) (hlt : off < 0x10000)
    (hin : s.inputs = .read (s.params.eccBase + off) 4 :: rest) :
    step s = .next
      { s with inputs := rest, readData := some (readReg s (regAt s.params off)) } := by
  rw [step_cons hin]
  refine (hostAccess_offset (s := { s with inputs := rest }) _ hp h4 hlt).trans ?_
  rw [hostRead, readReg_withInputs]

/-- A step that writes at an offset of the space, other than CMD's, writes the register there. -/
theorem step_writeOffset (hp : s.params.Valid) (h4 : off % 4 = 0) (hlt : off < 0x10000)
    (hcmd : regAt s.params off ≠ .cmd)
    (hin : s.inputs = .write (s.params.eccBase + off) 4 v :: rest) :
    step s = .next (writeReg { s with inputs := rest } (regAt s.params off) v) := by
  rw [step_cons hin]
  exact (hostAccess_offset (s := { s with inputs := rest }) _ hp h4 hlt).trans
    (hostWrite_eq_writeReg hcmd _ v)

end

section
variable {p : Config.Params} {r : Reg} {off : Nat}

/-- The offsets R49 gives are word-aligned and in the space. -/
theorem mapOffset_bounds (hp : p.Valid) (h : mapOffset p r = some off) :
    off % 4 = 0 ∧ off < 0x10000 := by
  obtain ⟨-, htx, -, hrx, -⟩ := hp
  cases r with
  | tx j | rx j =>
    obtain ⟨hj, h⟩ := Option.ite_none_right_eq_some.1 h
    cases h
    omega
  | reserved => cases h
  | _ => cases h; decide

/-- The map gives a register's offset back to it. -/
theorem regAt_mapOffset (hp : p.Valid) (h : mapOffset p r = some off) : regAt p off = r := by
  cases r with
  | tx j =>
    obtain ⟨hj, h⟩ := Option.ite_none_right_eq_some.1 h
    cases h
    exact regAt_tx p j hj
  | rx j =>
    obtain ⟨hj, h⟩ := Option.ite_none_right_eq_some.1 h
    cases h
    exact regAt_rx p j hp hj
  | reserved => cases h
  | _ => cases h; simp [regAt]

/-- The assembler's offsets are those of R49. -/
theorem regOffset_eq_of_mapOffset (h : mapOffset p r = some off) : regOffset r = off := by
  cases r with
  | tx j | rx j =>
    obtain ⟨-, h⟩ := Option.ite_none_right_eq_some.1 h
    cases h
    rfl
  | reserved => cases h
  | _ => cases h; rfl

/-- The map has no register at a reserved offset (R50). -/
theorem regAt_reservedOffset (hp : p.Valid) (h4 : off % 4 = 0) (h : ReservedOffset p off) :
    regAt p off = .reserved := by
  obtain ⟨-, htx, -, hrx, -⟩ := hp
  unfold ReservedOffset at h
  unfold regAt
  rw [if_neg (by omega), if_neg (by omega)]
  split
  on_goal -1 => rfl
  all_goals omega

theorem reservedOffset_lt (hp : p.Valid) (h : ReservedOffset p off) : off < 0x10000 := by
  obtain ⟨-, htx, -, hrx, -⟩ := hp
  unfold ReservedOffset at h
  omega

end

/-- Settles O9: the reserved register reads 0 and stores nothing, and the map has it at each of the four
ranges. -/
theorem reservedWordsDoNothing : Obligations.ReservedWordsDoNothing := by
  intro s off v rest hp h4 hres
  have hlt := reservedOffset_lt hp hres
  have hreg := regAt_reservedOffset hp h4 hres
  refine ⟨fun hin => ?_, fun hin => ?_⟩
  · rw [step_readOffset hp h4 hlt hin, hreg]
    rfl
  · rw [step_writeOffset hp h4 hlt (by simp [hreg]) hin, hreg]
    rfl

/-- Settles O10: the map gives each offset of R49 back to its register. -/
theorem movesReachTheirRegister : Obligations.MovesReachTheirRegister := by
  intro s r off v rest hp hmap
  obtain ⟨h4, hlt⟩ := mapOffset_bounds hp hmap
  have hreg := regAt_mapOffset hp hmap
  have hoff := regOffset_eq_of_mapOffset hmap
  refine ⟨by rw [readMove, hoff], by rw [writeMove, hoff], fun hin => ?_, fun hcmd hin => ?_⟩
  · rw [step_readOffset hp h4 hlt hin, hreg]
  · rw [step_writeOffset hp h4 hlt (hreg ▸ hcmd) hin, hreg]

end Sys2Proof.Machine
end

section
/-! PROOFS. Which buffer entries a command changes (R57), and by how much MDEC lowers one (R105). -/

namespace Sys2Proof.Machine

open Sys2Proof.Spec

/-! ## Borrows (R104, R105) -/

/-- An entry of the window read as at least 1 is an entry of the sequence. -/
theorem getElem?_of_windowRead_pos {u : List Nat} {stop j : Nat} (h : 0 < windowRead u stop j) :
    j < stop ∧ u[j]? = some (windowRead u stop j) := by
  by_cases hs : j < stop
  · simp only [windowRead, if_pos hs, List.getD_eq_getElem?_getD] at h ⊢
    refine ⟨hs, ?_⟩
    cases hj : u[j]? with
    | none => simp [hj] at h
    | some d => rfl
  · rw [windowRead_beyond u stop j (by omega)] at h
    omega

/-- The decode leaves an entry, or lowers it once, by 1 from at least 2, after its position and
inside its window: a borrow moves the position onto the entry it lowers, which no later borrow
reaches. -/
theorem mdecLoop_entry (fuel : Nat) (u : List Nat) (stop i : Nat) (ph : Polarity) (acc : Code)
    (j : Nat) :
    (mdecLoop fuel u stop i ph acc).2[j]? = u[j]?
    ∨ (i < j ∧ j < stop ∧ ∃ d, u[j]? = some (d + 1) ∧ 1 ≤ d
        ∧ (mdecLoop fuel u stop i ph acc).2[j]? = some d) := by
  induction fuel generalizing u i ph acc with
  | zero => exact .inl rfl
  | succ fuel ih =>
    simp only [mdecLoop]
    split
    · next hv =>
      obtain ⟨hstop, hnx⟩ := getElem?_of_windowRead_pos hv.2
      split
      · exact (ih u (i + 2) ph (pushBit acc ph)).imp id fun ⟨hlt, h⟩ => ⟨by omega, h⟩
      · generalize windowRead u stop (i + 1) = nx at *
        by_cases hj : j = i + 1
        · subst hj
          refine .inr ⟨by omega, hstop, nx - 1, ?_, by omega, ?_⟩
          · rw [hnx, Nat.sub_add_cancel hv.2]
          · rw [mdecLoop_outside _ _ _ _ _ _ _ (.inl (Nat.le_refl _)),
              List.getElem?_set_self (List.getElem?_eq_some_iff.1 hnx).1]
        · have h := ih (u.set (i + 1) (nx - 1)) (i + 1) ph.flip (pushBit acc ph)
          rw [List.getElem?_set_ne (Ne.symm hj)] at h
          exact h.imp id fun ⟨hlt, h⟩ => ⟨by omega, h⟩
    · split <;> exact .inl rfl

theorem mdecFn_entry (u : List Nat) (start stop j : Nat) :
    (mdecFn u start stop).2[j]? = u[j]?
    ∨ (start < j ∧ j < stop ∧ ∃ d, u[j]? = some (d + 1) ∧ 1 ≤ d
        ∧ (mdecFn u start stop).2[j]? = some d) := mdecLoop_entry ..

/-- What MDEC does to an entry (R105, R107). -/
theorem Completes.mdec_rxAt {s t : State} (h : Completes s .mdec t) (j : Nat) :
    t.rxAt j = s.rxAt j
    ∨ (s.start.toNat < j ∧ j < s.endIdx.toNat ∧ 2 ≤ (s.rxAt j).toNat
        ∧ (t.rxAt j).toNat + 1 = (s.rxAt j).toNat) := by
  cases h with
  | @mdec _ units _ hu =>
    have hlen : units.length = s.endIdx.toNat := by
      simpa [hu] using mdecFn_length (s.rxSeq s.endIdx.toNat) s.start.toNat s.endIdx.toNat
    have hentry := mdecFn_entry (s.rxSeq s.endIdx.toNat) s.start.toNat s.endIdx.toNat j
    rw [hu] at hentry
    change (s.storeRx units).rxAt j = _ ∨ (_ ∧ _ ∧ _ ∧ ((s.storeRx units).rxAt j).toNat + 1 = _)
    rw [State.rxAt_storeRx]
    by_cases hj : j < units.length
    · have hseq : (s.rxSeq s.endIdx.toNat)[j]? = some (s.rxAt j).toNat := by
        rw [List.getElem?_eq_getElem (by simpa using hlen ▸ hj), State.getElem_rxSeq]
      simp only [hseq, List.getElem?_eq_getElem hj, Option.some.injEq] at hentry
      rw [dif_pos hj]
      rcases hentry with heq | ⟨hstart, hend, d, hd, hpos, heq⟩
      · exact .inl (by simp [heq])
      · refine .inr ⟨hstart, hend, by omega, ?_⟩
        have := (s.rxAt j).isLt
        rw [heq, BitVec.toNat_ofNat]
        omega
    · exact .inl (dif_neg hj)

/-- Settles O42: a refused MDEC changes no entry. -/
theorem borrowsTakeOneUnit : Obligations.BorrowsTakeOneUnit := by
  intro s t h j
  rcases exec_cases .mdec s with ⟨u, hu, hx⟩ | ⟨e, -, hx⟩ <;> cases hx.symm.trans h
  · exact hu.mdec_rxAt j
  · exact .inl rfl

/-! ## The ranges of R57 -/

theorem State.lt_of_txAt_storeTx_ne {s : State} {seq : List Nat} {j : Nat}
    (h : (s.storeTx seq).txAt j ≠ s.txAt j) : j < seq.length := by
  by_contra hj
  exact h ((s.txAt_storeTx seq j).trans (dif_neg hj))

theorem State.lt_of_rxAt_storeRx_ne {s : State} {units : List Nat} {j : Nat}
    (h : (s.storeRx units).rxAt j ≠ s.rxAt j) : j < units.length := by
  by_contra hj
  exact h ((s.rxAt_storeRx units j).trans (dif_neg hj))

/-- ENCODE_BITS keeps every entry before the last (R94.5). -/
theorem encodeBits_getElem?_of_lt {code : Code} {n : Nat} {seq out : List Nat} {j : Nat}
    (h : encodeBits code n seq = .ok out) (hj : j + 1 < seq.length) : out[j]? = seq[j]? := by
  rcases List.eq_nil_or_concat seq with rfl | ⟨pre, x, rfl⟩
  · simp at hj
  · rw [List.concat_eq_append, encodeBits_snoc] at h
    cases h
    have hpre : j < pre.length := by simpa using hj
    rw [List.concat_eq_append, List.getElem?_append_left hpre, List.getElem?_append_left hpre]

/-- A length up to the largest capacity is held whole in 16 bits (R6, R25). -/
theorem toNat_ofNat_length {n : Nat} (h : n ≤ 1024) : (BitVec.ofNat 16 n).toNat = n := by
  rw [BitVec.toNat_ofNat]
  omega

/-- A changed entry of TXBUF is the last of MENC's sequence or a new one, or one of FRENC's frame. -/
theorem Completes.of_txAt_ne {i : Instr} {s u : State} {j : Nat} (h : Completes s i u)
    (hp : s.params.Valid) (hne : u.txAt j ≠ s.txAt j) :
    (i = .menc ∧ s.txLen.toNat ≤ j + 1 ∧ j < u.txLen.toNat)
    ∨ ((i = .frenc ∨ i = .frencN) ∧ j < u.txLen.toNat) := by
  obtain ⟨-, hcap, -⟩ := hp
  cases h with
  | @menc seq _ he ho =>
    have hfits := (txOverflows_eq_false ho).1
    have hlt : j < seq.length := State.lt_of_txAt_storeTx_ne (s := s) hne
    refine .inl ⟨rfl, ?_, hlt.trans_eq (toNat_ofNat_length (by omega)).symm⟩
    by_contra hj
    refine hne ((s.txAt_storeTx seq j).trans ?_)
    have hkeep := encodeBits_getElem?_of_lt he (j := j) (by simpa using hj)
    rw [List.getElem?_eq_getElem hlt, List.getElem?_eq_getElem (by simp; omega),
      State.getElem_txSeq, Option.some.injEq] at hkeep
    rw [dif_pos hlt, hkeep, BitVec.ofNat_toNat, BitVec.setWidth_eq]
  | @frenc seq hf | @frencN seq hf =>
    have hfits := frame_length_le hf
    have hlt : j < seq.length := State.lt_of_txAt_storeTx_ne (s := s) hne
    exact .inr ⟨by simp, hlt.trans_eq (toNat_ofNat_length (by omega)).symm⟩
  | _ => exact absurd rfl hne

/-- A changed entry of RXBUF is one of the capture, or for MDEC strictly inside its window. -/
theorem Completes.of_rxAt_ne {i : Instr} {s u : State} {j : Nat} (h : Completes s i u)
    (hne : u.rxAt j ≠ s.rxAt j) :
    ((i = .norm ∨ i = .frdec ∨ i = .rx) ∧ j < s.rxLen.toNat)
    ∨ (i = .mdec ∧ s.start.toNat < j ∧ j < s.endIdx.toNat) := by
  cases h with
  | norm =>
    exact .inl ⟨by simp, by simpa using State.lt_of_rxAt_storeRx_ne hne⟩
  | frdec | rx =>
    have hlt : j < (frameDec s.normalised s.rxLen.toNat).units.length :=
      State.lt_of_rxAt_storeRx_ne (s := s) hne
    exact .inl ⟨by simp, by simpa [frameDec_units_length] using hlt⟩
  | mdec hw hu =>
    rcases (Completes.mdec hw hu).mdec_rxAt j with heq | ⟨hstart, hend, -⟩
    · exact absurd heq hne
    · exact .inr ⟨rfl, hstart, hend⟩
  | _ => exact absurd rfl hne

/-- Settles O52: an abandoned command changes no entry. -/
theorem bufferWritesStayInRange : Obligations.BufferWritesStayInRange := by
  intro i s hp
  rcases exec_cases i s with ⟨u, hu, hx⟩ | ⟨e, -, hx⟩
  · exact ⟨_, hx, fun j => hu.of_txAt_ne hp, fun j => hu.of_rxAt_ne⟩
  · exact ⟨_, hx, fun j hne => absurd rfl hne, fun j hne => absurd rfl hne⟩

end Sys2Proof.Machine
end

section
/-! PROOFS. The legal command words as a set (R64, R66, R68), and the form of a packed code (R72). -/

namespace Sys2Proof.Machine

open Sys2Proof.Spec

/-! ## Command words -/

/-- Settles O2. -/
theorem decodeExactlyTheEncodedWords : Obligations.DecodeExactlyTheEncodedWords := by
  intro w i
  refine ⟨eq_encode_of_decode, ?_⟩
  rintro rfl
  exact decode_encode i

/-- Settles O1: each word of the map is its command's, so the decoder reads it back. -/
theorem tableWordsDecode : Obligations.TableWordsDecode :=
  ⟨decode_encode .nop, decode_encode .fenc, decode_encode .fencN, decode_encode .fdec,
    decode_encode .menc, decode_encode .frenc, decode_encode .frencN, decode_encode .norm,
    decode_encode .mdec, decode_encode .frdec, decode_encode .vote, decode_encode .rx⟩

/-- The legal words are those the decoder reads: none of them has a bit of RSV, and the 32 words
without one are evaluated (R68). -/
theorem exists_decode_eq_ok_iff (w : Word) : (∃ i, decode w = .ok i) ↔ ¬ IllegalCommandWord w := by
  have short : ∀ k : Fin 32,
      (decode (BitVec.ofNat 32 k)).toBool = true ↔ ¬ IllegalCommandWord (BitVec.ofNat 32 k) := by
    unfold IllegalCommandWord
    decide
  have hshort (hw : w.toNat < 32) : (decode w).toBool = true ↔ ¬ IllegalCommandWord w := by
    simpa only [BitVec.ofNat_toNat, BitVec.setWidth_eq] using short ⟨w.toNat, hw⟩
  constructor
  · rintro ⟨i, hi⟩
    exact (hshort (toNat_lt_of_decode hi)).1 (by rw [hi]; rfl)
  · intro hlegal
    have hw : w.toNat < 32 := by
      unfold IllegalCommandWord at hlegal
      omega
    have hok := (hshort hw).2 hlegal
    cases hd : decode w with
    | ok i => exact ⟨i, rfl⟩
    | error e => simp [hd, Except.toBool] at hok

theorem exists_decode_eq_error_iff (w : Word) :
    (∃ e, decode w = .error e) ↔ IllegalCommandWord w := by
  rw [← not_iff_not, ← exists_decode_eq_ok_iff]
  cases decode w <;> simp

/-- Settles O3. -/
theorem illegalWordsRaiseIllegalOp : Obligations.IllegalWordsRaiseIllegalOp := by
  intro s w
  refine ⟨exists_decode_eq_error_iff w, fun hillegal => ?_, fun hlegal => ?_⟩
  · obtain ⟨e, he⟩ := (exists_decode_eq_error_iff w).2 hillegal
    simp only [runCommandWord, he, State.raise]
  · obtain ⟨i, hi⟩ := (exists_decode_eq_ok_iff w).2 hlegal
    exact ⟨i, eq_encode_of_decode hi, by simp only [runCommandWord, hi]⟩

/-! ## Packed codes -/

theorem exec_fieldEncoder (n : Bool) (s : State) :
    exec (if n then .fencN else .fenc) s = .next { s with result := pack s.cfg n, err := .ok } := by
  cases n <;> rfl

theorem modeInRange_of_inRange {c : Cfg} (h : InRange c) : Safety.modeInRange c = true := by
  obtain ⟨-, -, -, -, hlo, hhi⟩ := h
  simp [Safety.modeInRange, hlo, hhi]

/-- A well-formed code has bit 1 and a mode of at least 1 (R72). -/
theorem le_toNat_of_wellFormedCode {c : Code} (h : WellFormedCode c) : 0x40000002 ≤ c.toNat := by
  obtain ⟨-, -, -, -, hone, hmode, -, -⟩ := h
  simp only [bitOf, fieldOf] at hone hmode
  omega

/-- Settles O26: of the ranges only the mode's is needed, since PACK reduces the others (R81, R82). -/
theorem packedCodesAreWellFormed : Obligations.PackedCodesAreWellFormed := by
  refine ⟨fun s n hs => ⟨_, exec_fieldEncoder n s, ?_⟩,
    fun c hc => le_toNat_of_wellFormedCode hc, fun h => ?_⟩
  · exact wellFormedCode_pack n (modeInRange_of_inRange hs)
  · exact absurd (le_toNat_of_wellFormedCode h) (by decide)

end Sys2Proof.Machine
end

section
/-! PROOFS. The shape of a frame (R76, R77, R96 to R99): its waveform for every code, and its three
repetitions for a code with bit 0 clear. -/

namespace Sys2Proof.Machine

open Sys2Proof.Spec

/-! ## Waveforms (R75, R90) -/

@[simp] theorem waveformFrom_nil (j : Nat) : waveformFrom j [] = [] := rfl

theorem waveformFrom_cons (j d : Nat) (ds : List Nat) :
    waveformFrom j (d :: ds) = List.replicate d (pol j) ++ waveformFrom (j + 1) ds := rfl

/-- Of the first index only its polarity counts (R75). -/
theorem waveformFrom_congr {j k : Nat} (h : pol j = pol k) (seq : List Nat) :
    waveformFrom j seq = waveformFrom k seq := by
  induction seq generalizing j k with
  | nil => rfl
  | cons d ds ih =>
    rw [waveformFrom_cons, waveformFrom_cons, h,
      ih (show pol (j + 1) = pol (k + 1) by rw [pol_succ, pol_succ, h])]

theorem length_waveformFrom (j : Nat) (seq : List Nat) : (waveformFrom j seq).length = seq.sum := by
  induction seq generalizing j with
  | nil => rfl
  | cons d ds ih => simp [waveformFrom_cons, ih]

/-- The halves of a bit: the opposite of the level it leaves, and that level (R90, R93). -/
theorem payloadHalves_succ (code : Code) (k : Nat) :
    payloadHalves code (k + 1)
      = (secondHalf (code.getLsbD k)).flip :: secondHalf (code.getLsbD k)
        :: payloadHalves code k := by
  rw [payloadHalves]
  cases code.getLsbD k <;> rfl

theorem length_payloadHalves (code : Code) (n : Nat) : (payloadHalves code n).length = 2 * n := by
  induction n with
  | zero => rfl
  | succ k ih =>
    simp only [payloadHalves_succ, List.length_cons, ih]
    omega

theorem eq_flip_secondHalf {lev : Polarity} {b : Bool} (h : lev ≠ secondHalf b) :
    lev = (secondHalf b).flip := by
  revert h
  cases lev <;> cases b <;> simp [secondHalf, Polarity.flip]

/-- A closed tail is, half unit by half unit, its first entry, the payload, the closing mark and the
rest: coalescing loses nothing (R91). -/
theorem waveformFrom_closedTail (code : Code) (m : Nat) (rest : List Nat) (k j x : Nat) :
    waveformFrom j (closedTail code m rest k (pol j) x)
      = List.replicate x (pol j) ++ payloadHalves code k ++ List.replicate m .mark
        ++ waveformFrom 1 rest := by
  induction k generalizing j x with
  | zero =>
    cases hp : pol j with
    | mark =>
      have hnext : pol (j + 1) = pol 1 := by rw [pol_succ, hp]; rfl
      rw [closedTail, if_pos rfl, waveformFrom_cons, hp, waveformFrom_congr hnext, List.replicate_add,
        payloadHalves, List.append_nil]
    | space =>
      have hclose : pol (j + 1) = .mark := by rw [pol_succ, hp]; rfl
      have hnext : pol (j + 1 + 1) = pol 1 := by rw [pol_succ, hclose]; rfl
      simp [closedTail, payloadHalves, waveformFrom_cons, hp, hclose, waveformFrom_congr hnext]
  | succ k ih =>
    by_cases h : pol j = secondHalf (code.getLsbD k)
    · have hlev : pol (j + 1 + 1) = secondHalf (code.getLsbD k) := by rw [pol_add_two, h]
      have hrest := ih (j + 1 + 1) 1
      rw [hlev] at hrest
      rw [closedTail, if_pos h, waveformFrom_cons, waveformFrom_cons, hrest,
        payloadHalves_succ, pol_succ, h]
      simp
    · have hflip := eq_flip_secondHalf h
      have hlev : pol (j + 1) = secondHalf (code.getLsbD k) := by
        rw [pol_succ, hflip, Polarity_flip_flip]
      have hrest := ih (j + 1) 1
      rw [hlev] at hrest
      rw [closedTail, if_neg h, waveformFrom_cons, hrest, payloadHalves_succ, hflip,
        List.replicate_add]
      simp

theorem waveformFrom_repetitionTail (code : Code) (m : Nat) (rest : List Nat) :
    waveformFrom 1 (repetitionTail code m rest)
      = List.replicate 3 .space ++ payloadHalves code codeBits ++ List.replicate m .mark
        ++ waveformFrom 1 rest :=
  waveformFrom_closedTail code m rest codeBits 1 3

theorem length_frameHalves (code : Code) : (frameHalves code).length = 226 := by
  simp [frameHalves, length_payloadHalves]

/-- FRAME coalesces the frame of R76 and loses nothing of it (R96). -/
theorem waveform_frame {code : Code} {f : List Nat} (h : frame code = .ok f) :
    waveform f = frameHalves code := by
  cases (frame_eq code).symm.trans h
  have hmark : pol 0 = .mark := rfl
  simp only [waveform, waveformFrom_cons, hmark, Nat.zero_add, waveformFrom_repetitionTail,
    waveformFrom_nil, frameHalves, codeBits, List.append_assoc, List.append_nil]

/-- Settles O35: a sequence lasts as long as its waveform. -/
theorem frameLasts226Units : Obligations.FrameLasts226Units := by
  intro c
  have hwave := waveform_frame (frame_eq c)
  refine ⟨_, frame_eq c, hwave, ?_⟩
  rw [← length_waveformFrom 0, ← waveform, hwave, length_frameHalves]

/-! ## Repetitions (R97, R98) -/

/-- The entries of one repetition of a code with bit 0 clear: the preamble mark, then the preamble
space with the payload coalesced onto it (R97). -/
def repetitionEntries (code : Code) : List Nat := 3 :: bitsTail code codeBits .space 3

/-- With bit 0 clear the payload ends in a space, so the closing mark is a new entry (R96). -/
theorem closedTail_eq_bitsTail {code : Code} (h : code.getLsbD 0 = false) (m : Nat)
    (rest : List Nat) (k : Nat) (lev : Polarity) (x : Nat) :
    closedTail code m rest (k + 1) lev x = bitsTail code (k + 1) lev x ++ m :: rest := by
  induction k generalizing lev x with
  | zero =>
    rw [closedTail, bitsTail, h]
    split <;> rfl
  | succ k ih =>
    rw [closedTail, bitsTail, ih]
    split <;> rfl

/-- R98: three repetitions, entry for entry equal, and the sentinel. -/
theorem frame_eq_repetitionEntries {code : Code} (h : code.getLsbD 0 = false) :
    frame code = .ok (repetitionEntries code ++ repetitionEntries code ++ repetitionEntries code
      ++ [4]) := by
  have htail (m : Nat) (rest : List Nat) :
      repetitionTail code m rest = bitsTail code codeBits .space 3 ++ m :: rest :=
    closedTail_eq_bitsTail h m rest 33 .space 3
  simp [frame_eq, htail, repetitionEntries]

theorem repetitionEntries_of_toggle {code : Code} (h : code.getLsbD 33 = true) :
    repetitionEntries code = 3 :: 4 :: bitsTail code 33 .mark 1 := by
  rw [repetitionEntries, codeBits, bitsTail, h]
  rfl

theorem repetitionEntries_of_keep {code : Code} (h : code.getLsbD 33 = false) :
    repetitionEntries code = 3 :: 3 :: 1 :: bitsTail code 33 .space 1 := by
  rw [repetitionEntries, codeBits, bitsTail, h]
  rfl

/-- Past the preamble every entry of a repetition is 1 or 2 (R99). -/
theorem repetitionEntries_payload {code : Code} {j d : Nat} (hj : 2 ≤ j)
    (hd : (repetitionEntries code)[j]? = some d) : d = 1 ∨ d = 2 := by
  obtain ⟨y, t, ht, -, -, hpayload⟩ := bitsTail_entries code codeBits .space 3
  obtain ⟨k, rfl⟩ : ∃ k, j = k + 2 := ⟨j - 2, by omega⟩
  rw [repetitionEntries, ht, List.getElem?_cons_succ, List.getElem?_cons_succ] at hd
  exact hpayload d (List.mem_of_getElem? hd)

/-! ## The length of a repetition (R94, R99) -/

theorem secondHalf_inj {a b : Bool} : secondHalf a = secondHalf b ↔ a = b := by
  cases a <;> cases b <;> decide

theorem length_bitsTail (code : Code) (n : Nat) (prev : Bool) (x : Nat) :
    (bitsTail code n (secondHalf prev) x).length = entriesAdded code n prev + 1 := by
  induction n generalizing prev x with
  | zero => rfl
  | succ k ih =>
    simp only [bitsTail, entriesAdded, secondHalf_inj, eq_comm (a := prev)]
    split <;> simp only [List.length_cons, ih] <;> omega

/-- Each change from a bit to the next one saves an entry (R94.3). -/
theorem entriesAdded_add_changes (code : Code) (k : Nat) (prev : Bool) :
    entriesAdded code (k + 1) prev + (code.getLsbD k != prev).toNat
      + ((List.range k).filter fun i => code.getLsbD i != code.getLsbD (i + 1)).length
      = 2 * (k + 1) := by
  have hbit (b p : Bool) : (if b = p then 2 else 1) + (b != p).toNat = 2 := by
    cases b <;> cases p <;> rfl
  induction k generalizing prev with
  | zero =>
    have hfirst := hbit (code.getLsbD 0) prev
    simp only [entriesAdded, List.range_zero, List.filter_nil, List.length_nil]
    omega
  | succ k ih =>
    have hfirst := hbit (code.getLsbD (k + 1)) prev
    have hrest := ih (code.getLsbD (k + 1))
    have hlast : ([k].filter fun i => code.getLsbD i != code.getLsbD (i + 1)).length
        = (code.getLsbD k != code.getLsbD (k + 1)).toNat := by
      rw [List.filter_singleton]
      cases code.getLsbD k != code.getLsbD (k + 1) <;> rfl
    rw [entriesAdded, List.range_succ, List.filter_append, List.length_append, hlast]
    omega

theorem entriesAdded_payload (code : Code) :
    entriesAdded code codeBits false + (code.getLsbD 33).toNat + transitions code = 68 := by
  have hchanges := entriesAdded_add_changes code 33 false
  rwa [Bool.bne_false] at hchanges

theorem bitOf_eq_toNat (c : Code) (k : Nat) : bitOf c k = (c.getLsbD k).toNat := by
  rw [bitOf, ← Nat.toNat_testBit, BitVec.testBit_toNat]

/-- R99: `L = 70 − t(code) − code[33]`. -/
theorem length_repetitionEntries (code : Code) :
    (repetitionEntries code).length = repetitionLength code := by
  have htail := length_bitsTail code codeBits false 3
  have hadded := entriesAdded_payload code
  rw [repetitionEntries, List.length_cons, show Polarity.space = secondHalf false from rfl, htail,
    repetitionLength, bitOf_eq_toNat]
  omega

/-! ## The shape of a frame -/

/-- Three copies of a list read alike. -/
theorem getElem?_three_copies {α : Type} (l rest : List α) {r j : Nat} (hr : r < 3)
    (hj : j < l.length) : (l ++ l ++ l ++ rest)[r * l.length + j]? = l[j]? := by
  rw [List.append_assoc, List.append_assoc]
  interval_cases r
  · rw [Nat.zero_mul, Nat.zero_add, List.getElem?_append_left hj]
  · rw [List.getElem?_append_right (by omega), List.getElem?_append_left (by omega)]
    congr 1
    omega
  · rw [List.getElem?_append_right (by omega), List.getElem?_append_right (by omega),
      List.getElem?_append_left (by omega)]
    congr 1
    omega

/-- Settles O34: with bit 0 clear the frame is three copies of `repetitionEntries`, and the sentinel. -/
theorem frameHasThreeEqualRepetitions : Obligations.FrameHasThreeEqualRepetitions := by
  intro c hc
  rw [← length_repetitionEntries]
  have copy {r j : Nat} := getElem?_three_copies (repetitionEntries c) [4] (r := r) (j := j)
  have first {j : Nat} (hj : j < (repetitionEntries c).length) :
      (repetitionEntries c ++ repetitionEntries c ++ repetitionEntries c ++ [4])[j]?
        = (repetitionEntries c)[j]? := by
    simpa only [Nat.zero_mul, Nat.zero_add] using copy (r := 0) (by decide) hj
  have hlength : (repetitionEntries c ++ repetitionEntries c ++ repetitionEntries c).length
      = 3 * (repetitionEntries c).length := by
    simp only [List.length_append]
    omega
  refine ⟨_, frame_eq_repetitionEntries hc, ?length, fun r j hr hj => ?copies, rfl,
    fun hb => ?toggle, fun hb => ?keep, fun j d hlo hhi hd => ?payload, ?sentinel⟩
  case length => rw [List.length_append, hlength, List.length_singleton]
  case copies => rw [copy hr hj, first hj]
  case toggle =>
    rw [repetitionEntries_of_toggle hb]
    rfl
  case keep =>
    rw [repetitionEntries_of_keep hb]
    exact ⟨rfl, rfl⟩
  case payload => exact repetitionEntries_payload hlo (first hhi ▸ hd)
  case sentinel =>
    rw [← hlength]
    exact List.getElem?_concat_length

end Sys2Proof.Machine
end

section
/-! PROOFS. The field codec (R80 to R88): the fields of a packed code, the record an unpacked code leaves,
and both together. -/

namespace Sys2Proof.Machine

open Sys2Proof.Spec

/-! ## UNPACK_APPLY in numbers (R83, R84) -/

theorem getLsbD_eq_bitOf (code : Code) (k : Nat) : code.getLsbD k = (bitOf code k == 1) := by
  rw [bitOf_eq_toNat]
  cases code.getLsbD k <;> rfl

/-- A field of a code, taken into a width that holds it. -/
theorem setWidth_extractLsb' (code : Code) (lo n : Nat) {w : Nat} (h : n ≤ w) :
    (code.extractLsb' lo n).setWidth w = BitVec.ofNat w (code.toNat / 2 ^ lo % 2 ^ n) := by
  apply BitVec.eq_of_toNat_eq
  rw [BitVec.toNat_setWidth_of_le h, BitVec.extractLsb'_toNat, Nat.shiftRight_eq_div_pow,
    BitVec.toNat_ofNat, Nat.mod_eq_of_lt (b := 2 ^ w)]
  exact (Nat.mod_lt _ (Nat.two_pow_pos n)).trans_le (Nat.pow_le_pow_right (by decide) h)

theorem xor_beq_one (p : Bool) (b : Nat) : (p ^^ b == 1) = if b = 1 then !p else p := by
  by_cases h : b = 1
  · simp [h]
  · simp [h, beq_false_of_ne h]

theorem unpackApply_eq (c : Cfg) (code : Code) : unpackApply c code = unpackedCfg c code := by
  have field (lo n : Nat) : code.extractLsb' lo n = BitVec.ofNat n (code.toNat / 2 ^ lo % 2 ^ n) := by
    rw [← setWidth_extractLsb' code lo n (Nat.le_refl n), BitVec.setWidth_eq]
  simp only [unpackApply, unpackedCfg, getLsbD_eq_bitOf, xor_beq_one, beq_iff_eq, fieldOf, field,
    BitVec.ofNat_add, ← setWidth_extractLsb' code 19 5 (w := 6) (by decide),
    ← setWidth_extractLsb' code 19 4 (w := 6) (by decide)]

/-- Settles O22. -/
theorem fdecUnpacksTheCode : Obligations.FdecUnpacksTheCode := by
  intro s
  rw [← unpackApply_eq]
  rfl

/-- Settles O25: the second FDEC writes every field but power_real with the value it has, and the toggle
bit undoes itself. -/
theorem twoTogglesRestorePower : Obligations.TwoTogglesRestorePower := by
  intro s
  refine ⟨_, _, rfl, rfl, ?_⟩
  change unpackApply (unpackApply s.cfg s.codeIn) s.codeIn
    = { unpackApply s.cfg s.codeIn with powerReal := s.cfg.powerReal }
  simp only [unpackApply, Bool.xor_assoc, Bool.xor_self, Bool.xor_false]
  cases s.codeIn.getLsbD 27 <;> rfl

/-! ## PACK (R81, R82) -/

/-- Settles O21. -/
theorem fencPacksTheConfiguration : Obligations.FencPacksTheConfiguration := by
  intro s
  have hpack (n : Bool) : BitVec.ofNat 64 (packedValue s.cfg n) = pack s.cfg n := by
    rw [← pack_toNat, BitVec.ofNat_toNat, BitVec.setWidth_eq]
  rw [hpack, hpack]
  exact ⟨rfl, rfl⟩

/-- The fields PACK adds up fit their places (R71). -/
theorem packed_fields_lt (c : Cfg) (n : Bool) :
    c.mode.toNat < 8 ∧ c.fan.toNat < 4 ∧ payloadValue c n < 32 ∧ n.toNat < 2
    ∧ c.swing.toNat < 2 ∧ c.ifeel.toNat < 2 ∧ c.sleep.toNat < 2 :=
  ⟨c.mode.isLt, c.fan.isLt, payload_toNat c n ▸ (payload c n).isLt, n.toNat_lt, c.swing.toNat_lt,
    c.ifeel.toNat_lt, c.sleep.toNat_lt⟩

/-- The code of any record has bit 1 and none above bit 33 (R71, R85). -/
theorem packedValue_bounds (c : Cfg) (n : Bool) :
    2 ≤ packedValue c n ∧ packedValue c n < 2 ^ 34 := by
  obtain ⟨hmode, hfan, hpayload, hnotify, hswing, hifeel, hsleep⟩ := packed_fields_lt c n
  simp only [packedValue]
  split <;> omega

/-- The commands that pack a code leave the code of one of the two notify flags in RESULT (R85, R100). -/
theorem Completes.encoder_result {i : Instr} {s u : State} (h : Completes s i u)
    (hi : i = .fenc ∨ i = .fencN ∨ i = .frenc ∨ i = .frencN) : ∃ n, u.result = pack s.cfg n := by
  cases h with
  | fenc | frenc => exact ⟨false, rfl⟩
  | fencN | frencN => exact ⟨true, rfl⟩
  | _ => simp at hi

/-- Settles O27: an encoder raises no error, and its code's bounds need no range of CFG. -/
theorem noEncoderGivesTheSentinel : Obligations.NoEncoderGivesTheSentinel := by
  intro s i hi
  rcases exec_cases i s with ⟨u, hu, hx⟩ | ⟨e, he, -⟩
  · obtain ⟨n, hn⟩ := hu.encoder_result hi
    refine ⟨_, hx, ?_⟩
    rw [State.complete_result, hn, pack_toNat]
    exact packedValue_bounds s.cfg n
  · rcases bodyOf_error he with ⟨rfl, -⟩ | ⟨rfl, -⟩ | ⟨rfl | rfl | rfl, -⟩ <;> simp at hi

/-! ## A packed code unpacked (R87, R88) -/

/-- Each field of a packed code, read at its place, is the record's (R82). -/
theorem fields_of_pack (c : Cfg) (n : Bool) :
    bitOf (pack c n) 33 = (if c.powerSetting = c.powerReal then 0 else 1)
    ∧ fieldOf (pack c n) 32 30 = c.mode.toNat ∧ fieldOf (pack c n) 29 28 = c.fan.toNat
    ∧ bitOf (pack c n) 27 = n.toNat ∧ bitOf (pack c n) 25 = c.swing.toNat
    ∧ bitOf (pack c n) 24 = c.ifeel.toNat ∧ bitOf (pack c n) 18 = c.sleep.toNat
    ∧ fieldOf (pack c n) 23 19 = payloadValue c n
    ∧ fieldOf (pack c n) 22 19 = payloadValue c n % 16 := by
  obtain ⟨hmode, hfan, hpayload, hnotify, hswing, hifeel, hsleep⟩ := packed_fields_lt c n
  simp only [bitOf, fieldOf, pack_toNat, packedValue]
  split <;> omega

/-- A reading in its range (R39) comes back from the payload of a notify code. -/
theorem ofNat_payloadValue_notify {c : Cfg} (h : InRange c) :
    BitVec.ofNat 6 (payloadValue c true + 5) = c.ifeelTemperature := by
  obtain ⟨-, -, hlo, hhi, -, -⟩ := h
  apply BitVec.eq_of_toNat_eq
  simp only [payloadValue, ite_true, BitVec.toNat_ofNat]
  omega

/-- A set-point in its range (R38) comes back from the payload of the other codes. -/
theorem ofNat_payloadValue_setPoint {c : Cfg} (h : InRange c) :
    BitVec.ofNat 6 (payloadValue c false % 16 + 15) = c.temperature := by
  obtain ⟨hlo, hhi, -, -, -, -⟩ := h
  apply BitVec.eq_of_toNat_eq
  simp only [payloadValue, Bool.false_eq_true, ite_false, BitVec.toNat_ofNat]
  omega

/-- What a receiver's record becomes by another's code (R87, R88). -/
theorem unpackApply_pack {c : Cfg} (h : InRange c) (c' : Cfg) (n : Bool) :
    unpackApply c' (pack c n) = { c' with
      powerReal := if c.powerSetting = c.powerReal then c'.powerReal else !c'.powerReal
      mode := c.mode, fan := c.fan, swing := c.swing, ifeel := c.ifeel, sleep := c.sleep
      ifeelTemperature := if n then c.ifeelTemperature else c'.ifeelTemperature
      temperature := if n then c'.temperature else c.temperature } := by
  obtain ⟨hpower, hmode, hfan, hnotify, hswing, hifeel, hsleep, hreading, hsetPoint⟩ :=
    fields_of_pack c n
  have bit (b : Bool) : (b.toNat == 1) = b := by cases b <;> rfl
  simp only [unpackApply_eq, unpackedCfg, hpower, hmode, hfan, hnotify, hswing, hifeel, hsleep,
    hreading, hsetPoint, bit, BitVec.ofNat_toNat, BitVec.setWidth_eq]
  congr 1
  · split <;> rfl
  · cases n
    · exact ofNat_payloadValue_setPoint h
    · rfl
  · cases n
    · rfl
    · exact ofNat_payloadValue_notify h

/-- Settles O23. -/
theorem fieldsSurviveTheRoundTrip : Obligations.FieldsSurviveTheRoundTrip := by
  intro s cfg' n hs
  refine ⟨_, _, exec_fieldEncoder n s, rfl, ?_⟩
  rw [State.complete_cfg, unpackApply_pack hs]
  exact ⟨rfl, rfl, rfl, rfl, rfl, fun hn => by rw [hn]; rfl, fun hn => by rw [hn]; rfl⟩

/-- Settles O24. -/
theorem powerIsATogglePair : Obligations.PowerIsATogglePair := by
  intro s n
  obtain ⟨hpower, -⟩ := fields_of_pack s.cfg n
  refine ⟨⟨_, exec_fieldEncoder n s, ?_⟩, _, fdecUnpacksTheCode s, ?_⟩
  · simp [hpower]
  · simp +contextual [unpackedCfg]

end Sys2Proof.Machine
end

section
/-! PROOFS. RX (R115): what it adds to FRDEC. -/

namespace Sys2Proof.Machine

open Sys2Proof.Spec

/-- The model's check of FRDEC's and RX's arguments is R121's. -/
theorem badCaptureArgs_iff_badCapture (s : State) : s.badCaptureArgs = true ↔ BadCapture s := by
  rw [badCaptureArgs_iff, BadCapture, ← BitVec.toNat_inj, ← BitVec.toNat_inj]
  rfl

/-- A refused capture changes nothing but ERR (R113, R115, R123). -/
theorem exec_of_badCapture {s : State} (h : BadCapture s) {i : Instr} (hi : i = .frdec ∨ i = .rx) :
    exec i s = .next (s.raise .badArg) := by
  have hargs := (badCaptureArgs_iff_badCapture s).2 h
  rw [exec_eq_finish]
  rcases hi with rfl | rfl
  · rw [bodyOf, frdecBody_eq, if_pos hargs]
    rfl
  · rw [bodyOf, rxBody_eq, if_pos hargs]
    rfl

theorem exec_frdec {s : State} (h : ¬ BadCapture s) :
    exec .frdec s = .next (s.withFrame (frameDec s.normalised s.rxLen.toNat)).complete := by
  rw [exec_eq_finish, bodyOf, frdecBody_eq, if_neg (mt (badCaptureArgs_iff_badCapture s).1 h)]
  rfl

theorem exec_rx {s : State} (h : ¬ BadCapture s) :
    exec .rx s
      = .next (s.withFrame (frameDec s.normalised s.rxLen.toNat)).complete.applyResult := by
  rw [exec_eq_finish, bodyOf, rxBody_eq, if_neg (mt (badCaptureArgs_iff_badCapture s).1 h)]
  rfl

/-- A failed receive leaves CFG (R115). -/
theorem applyResult_of_zero {s : State} (h : s.result = 0) : s.applyResult = s := by
  rw [State.applyResult, if_pos h]

theorem applyResult_of_ne {s : State} (h : s.result ≠ 0) :
    s.applyResult = { s with cfg := unpackedCfg s.cfg s.result } := by
  rw [State.applyResult, if_neg h, unpackApply_eq]

/-- Settles O47: RX's body is FRDEC's followed by `State.applyResult`. -/
theorem rxAppliesTheResult : Obligations.RxAppliesTheResult := by
  intro s
  by_cases hbad : BadCapture s
  · exact ⟨_, _, exec_of_badCapture hbad (.inl rfl), exec_of_badCapture hbad (.inr rfl),
      fun h => absurd hbad h, fun h => absurd hbad h, fun h => absurd hbad h, fun _ => rfl⟩
  · refine ⟨_, _, exec_frdec hbad, exec_rx hbad, fun _ => ⟨rfl, rfl⟩, fun _ hzero => ?_,
      fun _ hne => ?_, fun h => absurd h hbad⟩
    · exact applyResult_of_zero hzero
    · exact applyResult_of_ne hne

end Sys2Proof.Machine
end

section
/-! PROOFS. FRAMEDEC on a frame (R108 to R111): the scan, and the code given back three times over. -/

namespace Sys2Proof.Machine

open Sys2Proof.Spec

/-! ## The passes of the scan (R110) -/

section
variable {n k : Nat} {reps : List Code} {u : List Nat}

/-- With three candidates found the scan ends. -/
theorem scanLoop_of_not_lt (hreps : ¬ reps.length < 3) : scanLoop n n k reps u = (reps, u) := by
  cases n with
  | zero => rfl
  | succ m => rw [scanLoop, if_neg (fun h => hreps h.1)]

/-- A pass at no boundary goes on to the next index. -/
theorem scanLoop_of_none (hreps : reps.length < 3) (hk : k + 1 < n) (hb : boundaryAt u k = none) :
    scanLoop n n k reps u = scanLoop n n (k + 1) reps u := by
  obtain ⟨m, rfl⟩ : ∃ m, n = m + 1 := ⟨n - 1, by omega⟩
  rw [scanLoop_fuel (m + 1) m 1 (k + 1) reps u (by omega), scanLoop, if_pos ⟨hreps, hk⟩, hb]

/-- A pass at a boundary decodes its payload and goes on two indices later. -/
theorem scanLoop_of_some {start : Nat} {v : List Nat} (hreps : reps.length < 3) (hk : k + 1 < n)
    (hb : boundaryAt u k = some (start, v)) :
    scanLoop n n k reps u
      = scanLoop n n (k + 2) (reps ++ [(mdecFn v start n).1]) (mdecFn v start n).2 := by
  obtain ⟨m, rfl⟩ : ∃ m, n = m + 1 := ⟨n - 1, by omega⟩
  rw [scanLoop_fuel (m + 1) m 1 (k + 2) _ _ (by omega), scanLoop, if_pos ⟨hreps, hk⟩, hb]

/-- The scan passes over entries of one unit: no boundary starts there (R108). -/
theorem scanLoop_ones {stop : Nat} (hk : k ≤ stop) (hn : stop < n)
    (hones : ∀ j, k ≤ j → j < stop → u.getD j 0 = 1) :
    scanLoop n n k reps u = scanLoop n n stop reps u := by
  by_cases hreps : reps.length < 3
  · induction stop, hk using Nat.le_induction with
    | base => rfl
    | succ stop hk ih =>
      have hb : boundaryAt u stop = none := by
        rw [boundaryAt, hones stop hk (Nat.lt_succ_self stop)]
        simp
      rw [ih (by omega) fun j hlo hhi => hones j hlo (Nat.lt_succ_of_lt hhi),
        scanLoop_of_none hreps hn hb]
  · rw [scanLoop_of_not_lt hreps, scanLoop_of_not_lt hreps]

end

/-! ## One repetition (R111) -/

section
variable {code : Code} {m n : Nat} {rest pre start : List Nat}

/-- What follows a closing mark stands after the tail unchanged. -/
theorem closedTail_append (code : Code) (m : Nat) (rest : List Nat) (k : Nat) (lev : Polarity)
    (x : Nat) : closedTail code m rest k lev x = closedTail code m [] k lev x ++ rest := by
  induction k generalizing lev x with
  | zero => cases lev <;> rfl
  | succ k ih =>
    simp only [closedTail]
    split <;> rw [ih] <;> rfl

/-- The first bit and the 33 after it make up a code of 34 bits (R55). -/
theorem shiftIn_significant (h : code.toNat < 2 ^ 34) :
    shiftIn code 33 (2 * 0 + if code.getLsbD 33 then 1 else 0) = code := by
  rw [show shiftIn code 33 _ = shiftIn code 34 0 from rfl]
  apply BitVec.eq_of_toNat_eq
  rw [shiftIn_toNat, BitVec.ofNat_eq_ofNat, BitVec.toNat_zero]
  omega

/-- From the first half of a payload to the closing mark the decode gives the code back, and leaves
entries of one unit. -/
theorem mdecFn_payload (hcode : code.toNat < 2 ^ 34) (hm : m = 3 ∨ m = 4)
    (hstart : pol start.length = (secondHalf (code.getLsbD 33)).flip)
    (hn : (start ++ 1 :: closedTail code m rest 33 (secondHalf (code.getLsbD 33)) 1).length ≤ n) :
    ∃ ones, 1 ≤ ones ∧ pol (start.length + ones) = .mark ∧ start.length + ones < n
      ∧ mdecFn (start ++ 1 :: closedTail code m rest 33 (secondHalf (code.getLsbD 33)) 1)
          start.length n
        = (code, start ++ (List.replicate ones 1 ++ m :: rest)) := by
  rw [closedTail_append, ← List.cons_append, ← List.append_assoc, List.length_append] at hn
  obtain ⟨ones, hones, hmark, hlt, hloop⟩ := mdecLoop_closedTail code m hm rest n 33 start
    (code.getLsbD 33) 0 (n - start.length + 1) hstart (by omega) (Nat.le_refl _)
  exact ⟨ones, hones, hmark, hlt, by rw [mdecFn, hstart, hloop, shiftIn_significant hcode]⟩

/-- Before a first bit 0 the preamble space stands alone (R97). -/
theorem repetitionTail_of_keep (h : code.getLsbD 33 = false) : repetitionTail code m rest
    = 3 :: 1 :: closedTail code m rest 33 (secondHalf false) 1 := by
  rw [repetitionTail, codeBits, closedTail, h]
  rfl

/-- Before a first bit 1 the preamble space is merged with the first half (R97). -/
theorem repetitionTail_of_toggle (h : code.getLsbD 33 = true) : repetitionTail code m rest
    = 4 :: closedTail code m rest 33 (secondHalf true) 1 := by
  rw [repetitionTail, codeBits, closedTail, h]
  rfl

/-- At a preamble mark the boundary is in the ordinary form before a first bit 0 and in the merged form
before a first bit 1 (R97, R108); after its action the payload starts at the first half of that bit. -/
theorem boundaryAt_repetition (hpol : pol pre.length = .mark) :
    ∃ start, pol start.length = (secondHalf (code.getLsbD 33)).flip
      ∧ pre.length + 1 ≤ start.length ∧ start.length ≤ pre.length + 2
      ∧ (start ++ 1 :: closedTail code m rest 33 (secondHalf (code.getLsbD 33)) 1).length
        = (pre ++ 3 :: repetitionTail code m rest).length
      ∧ boundaryAt (pre ++ 3 :: repetitionTail code m rest) pre.length
        = some (start.length,
            start ++ 1 :: closedTail code m rest 33 (secondHalf (code.getLsbD 33)) 1) := by
  have heven : pre.length % 2 = 0 := by
    by_contra hodd
    simp [pol, hodd] at hpol
  cases hb : code.getLsbD 33 with
  | false =>
    rw [repetitionTail_of_keep hb]
    generalize closedTail code m rest 33 (secondHalf false) 1 = tail
    refine ⟨pre ++ [3, 3], ?_, ?_⟩
    · simp [pol_add_two, hpol, secondHalf, Polarity.flip]
    · simp [boundaryAt, heven]
  | true =>
    rw [repetitionTail_of_toggle hb]
    generalize closedTail code m rest 33 (secondHalf true) 1 = tail
    refine ⟨pre ++ [3], ?_, ?_⟩
    · simp [pol_succ, hpol, secondHalf, Polarity.flip]
    · simp [boundaryAt, heven]

/-- The scan goes from a preamble mark to the next mark and finds the code on the way. -/
theorem scanLoop_repetition (hcode : code.toNat < 2 ^ 34) (hm : m = 3 ∨ m = 4) {reps : List Code}
    (hreps : reps.length < 3) (hpol : pol pre.length = .mark)
    (hn : (pre ++ 3 :: repetitionTail code m rest).length ≤ n) :
    ∃ next, pol next.length = .mark ∧ (next ++ m :: rest).length ≤ n
      ∧ scanLoop n n pre.length reps (pre ++ 3 :: repetitionTail code m rest)
        = scanLoop n n next.length (reps ++ [code]) (next ++ m :: rest) := by
  obtain ⟨start, hstart, hlo, hhi, hlength, hb⟩ :=
    boundaryAt_repetition (code := code) (m := m) (rest := rest) hpol
  obtain ⟨ones, hones, hmark, hlt, hdecode⟩ := mdecFn_payload hcode hm hstart (hlength.trans_le hn)
  have hkept := congrArg (List.length ·.2) hdecode
  simp only [mdecFn_length, hlength] at hkept
  refine ⟨start ++ List.replicate ones 1, by simpa using hmark, ?_, ?_⟩
  · rw [List.append_assoc, ← hkept]
    exact hn
  · rw [scanLoop_of_some hreps (by omega) hb, hdecode, List.append_assoc, List.length_append,
      List.length_replicate]
    refine scanLoop_ones (by omega) hlt fun j hge hlt => ?_
    rw [List.getD_append_right _ _ _ _ (by omega),
      List.getD_append _ _ _ _ (by rw [List.length_replicate]; omega),
      List.getD_replicate _ (by omega)]

end

/-! ## The whole frame -/

/-- R111: the scan of a frame finds its code three times. -/
theorem scanLoop_frame {code : Code} (hcode : code.toNat < 2 ^ 34) {f : List Nat}
    (hf : frame code = .ok f) : (scanLoop f.length f.length 0 [] f).1 = [code, code, code] := by
  cases (frame_eq code).symm.trans hf
  generalize hn : (3 :: repetitionTail code 3 _).length = n
  obtain ⟨next₁, hpol₁, hn₁, hscan₁⟩ := scanLoop_repetition (reps := []) (pre := []) hcode
    (.inl rfl) (by decide) rfl hn.le
  obtain ⟨next₂, hpol₂, hn₂, hscan₂⟩ := scanLoop_repetition (reps := [code]) hcode (.inl rfl)
    (by simp) hpol₁ hn₁
  obtain ⟨next₃, -, -, hscan₃⟩ := scanLoop_repetition (reps := [code, code]) hcode (.inr rfl)
    (by simp) hpol₂ hn₂
  have hscan := ((hscan₁.trans hscan₂).trans hscan₃).trans (scanLoop_of_not_lt (by simp))
  exact congrArg Prod.fst hscan

/-- R111: FRAMEDEC gives the code of a frame back, by all three candidates. -/
theorem frameDec_frame {code : Code} (hcode : code.toNat < 2 ^ 34) {f : List Nat}
    (hf : frame code = .ok f) :
    ∃ units, frameDec f f.length
      = { res := code, rep0 := code, rep1 := code, rep2 := code, count := 3, units := units } := by
  refine ⟨(scanLoop f.length f.length 0 [] f).2, ?_⟩
  simp [frameDec, scanLoop_frame hcode hf, maj]

end Sys2Proof.Machine
end

section
/-! PROOFS. From one block to another (R87, R88, R100, R102, R111, R115): a jittered capture normalises to
the frame sent, and RX applies the sender's code. -/

namespace Sys2Proof.Machine

open Sys2Proof.Spec

/-! ## The capture in units (R101, R102) -/

/-- NORMFN gives `n`, short of saturation, exactly in the window of `n` units (R102). -/
theorem normFn_eq_iff {tickUs unitUs x n : Nat} (hunit : 0 < unitUs) (hn : n < 0xFFFFFFFF) :
    normFn tickUs unitUs x = n ↔
      (n : Int) * unitUs - (unitUs / 2 : Nat) ≤ (x : Int) * tickUs
      ∧ (x : Int) * tickUs < ((n : Int) + 1) * unitUs - (unitUs / 2 : Nat) := by
  have hmin : normFn tickUs unitUs x = n ↔ (x * tickUs + unitUs / 2) / unitUs = n := by
    unfold normFn
    omega
  rw [hmin, Nat.div_eq_iff hunit, add_mul, ← Nat.cast_mul, ← Nat.cast_mul]
  omega

/-- No entry of a frame is longer than the frame itself, 226 units (R99). -/
theorem frame_entry_lt {code : Code} {f : List Nat} (hf : frame code = .ok f) {d : Nat}
    (hd : d ∈ f) : d < 2 ^ 16 := by
  obtain ⟨_, hf', -, hsum⟩ := frameLasts226Units code
  cases hf'.symm.trans hf
  have := List.le_sum_of_mem hd
  omega

/-- FRENC and FRENC.N leave the code in RESULT and its frame in TXBUF (R100). -/
theorem exec_frameEncoder (n : Bool) (s : State) :
    ∃ f, frame (pack s.cfg n) = .ok f ∧ exec (if n then .frencN else .frenc) s
      = .next { s.storeTx f with
          txLen := BitVec.ofNat 16 f.length, result := pack s.cfg n, err := .ok } := by
  obtain ⟨f, hf, hbody⟩ := frencBody_eq n s
  refine ⟨f, hf, ?_⟩
  have hexec : exec (if n then .frencN else .frenc) s = finish s (frencBody n s) := by
    cases n <;> rfl
  rw [hexec, hbody]
  rfl

/-- A frame's length is held whole in TXLEN (R25, R99). -/
theorem toNat_ofNat_frame_length {code : Code} {f : List Nat} (hf : frame code = .ok f) :
    (BitVec.ofNat 16 f.length).toNat = f.length :=
  toNat_ofNat_length ((frame_length_le hf).trans (by decide))

/-- An entry of a stored frame reads back (R100). -/
theorem txAt_storeTx_frame {code : Code} {f : List Nat} (hf : frame code = .ok f) (s : State) {j : Nat}
    (hj : j < f.length) : ((s.storeTx f).txAt j).toNat = f[j] := by
  rw [State.txAt_storeTx, dif_pos hj, BitVec.toNat_ofNat,
    Nat.mod_eq_of_lt (frame_entry_lt hf (List.getElem_mem hj))]

/-- A block that holds a sequence as its capture, one tick to a unit. -/
def exactCapture (f : List Nat) : State :=
  State.storeRx { State.reset with
    rxLen := BitVec.ofNat 16 f.length, tickUs := 1, unitUs := 1 } f

/-- The premises of a reception can be met whatever the sender, by a capture without jitter. -/
theorem exists_received (n : Bool) (s : State) : ∃ t r, Received n s t r := by
  obtain ⟨f, hf, hexec⟩ := exec_frameEncoder n s
  have hlength := toNat_ofNat_frame_length hf
  refine ⟨_, exactCapture f, hexec, rfl, ?_, fun j hj => ?_⟩
  · have hfits : f.length ≤ State.reset.params.rxCap := (frame_length_le hf).trans (by decide)
    simp [BadCapture, exactCapture, hlength, hfits]
  · have hj' : j < f.length := hlength ▸ hj
    have hsmall := frame_entry_lt hf (List.getElem_mem hj')
    have htx := txAt_storeTx_frame hf s hj'
    have hrx : ((exactCapture f).rxAt j).toNat = f[j] := by
      rw [exactCapture, State.rxAt_storeRx, dif_pos hj', BitVec.toNat_ofNat, Nat.mod_eq_of_lt (by omega)]
    refine (normFn_eq_iff (tickUs := 1) (unitUs := 1) (by decide) ?_).1 ?_
    · exact htx.trans_lt (by omega)
    · rw [hrx, normFn]
      refine Eq.trans ?_ htx.symm
      omega

/-- The receiver's capture, in units, is the frame of the sender's code. -/
theorem frame_of_received {n : Bool} {s t r : State} (h : Received n s t r) :
    frame (pack s.cfg n) = .ok r.normalised := by
  obtain ⟨hsent, hlen, hgood, hjitter⟩ := h
  obtain ⟨f, hf, hexec⟩ := exec_frameEncoder n s
  cases hexec.symm.trans hsent
  have hunit : 0 < r.unitUs.toNat := Nat.pos_of_ne_zero fun h => hgood (.inr (.inl h))
  have hlength := toNat_ofNat_frame_length hf
  rw [hf]
  congr 1
  refine (List.ext_getElem ?_ fun j hj hj' => ?_).symm
  · rw [State.length_normalised, hlen, hlength]
  · have hwindow := hjitter j (by simpa [hlen, hlength] using hj')
    have hsmall := frame_entry_lt hf (List.getElem_mem hj')
    simp only [State.normalised, List.getElem_map, State.getElem_rxSeq]
    rw [normFn_eq_iff hunit (by omega), ← txAt_storeTx_frame hf s hj']
    exact hwindow

/-- Every code of a record is one of 34 bits (R71). -/
theorem pack_toNat_lt (c : Cfg) (n : Bool) : (pack c n).toNat < 2 ^ 34 := by
  rw [pack_toNat]
  exact (packedValue_bounds c n).2

/-- No code of a record is the failure sentinel (R112). -/
theorem pack_ne_zero (c : Cfg) (n : Bool) : pack c n ≠ 0 := by
  intro h
  have := (packedValue_bounds c n).1
  rw [← pack_toNat, h] at this
  simp at this

/-- FRAMEDEC on the receiver's capture gives the sender's code (R111, R113). -/
theorem frameDec_of_received {n : Bool} {s t r : State} (h : Received n s t r) :
    (frameDec r.normalised r.rxLen.toNat).res = pack s.cfg n := by
  obtain ⟨units, hdecode⟩ := frameDec_frame (pack_toNat_lt s.cfg n) (frame_of_received h)
  rw [← State.length_normalised, hdecode]

/-- RX applies the sender's code to the receiver's record (R115). -/
theorem exec_rx_of_received {n : Bool} {s t r : State} (h : Received n s t r) :
    ∃ u, exec .rx r = .next u ∧ u.cfg = unpackApply r.cfg (pack s.cfg n) := by
  have hcode := frameDec_of_received h
  obtain ⟨-, -, hgood, -⟩ := h
  refine ⟨_, exec_rx hgood, ?_⟩
  have hne : (frameDec r.normalised r.rxLen.toNat).res ≠ 0 := hcode ▸ pack_ne_zero s.cfg n
  rw [applyResult_of_ne hne, ← unpackApply_eq, ← hcode]
  rfl

/-- Settles O59: RX applies the sender's code, and that code brings the sender's fields. -/
theorem configurationIsTransferred : Obligations.ConfigurationIsTransferred := by
  intro n s t r h hs
  obtain ⟨u, hexec, hcfg⟩ := exec_rx_of_received h
  refine ⟨u, hexec, ?_⟩
  rw [hcfg, unpackApply_pack hs]
  refine ⟨rfl, rfl, rfl, rfl, rfl, rfl, rfl, ?_, rfl, rfl⟩
  by_cases hmatch : s.cfg.powerSetting = s.cfg.powerReal <;> simp [hmatch]

end Sys2Proof.Machine
end

section
/-! PROOFS. The Manchester encoder on a sequence (R89 to R94): the level after a bit, the waveform kept, the
units and entries added, and that no alternating list is shorter. -/

namespace Sys2Proof.Machine

open Sys2Proof.Spec

/-! ## One bit (R93) -/

/-- The level after a bit is the polarity of its second half (R93). -/
theorem level_of_emitBit {seq out : List Nat} {b : Bool} (h : emitBit seq b = .ok out) :
    0 < out.length ∧ pol (out.length - 1) = secondHalf b := by
  rcases List.eq_nil_or_concat seq with rfl | ⟨pre, x, rfl⟩
  · cases b <;> cases h
    exact ⟨by decide, rfl⟩
  · rw [List.concat_eq_append, emitBit_snoc] at h
    by_cases hlev : pol pre.length = secondHalf b
    · rw [if_pos hlev] at h
      cases h
      simp [pol_add_two, hlev]
    · rw [if_neg hlev] at h
      cases h
      simp [pol_succ, eq_flip_secondHalf hlev]

/-- Settles O28: the rows of R93 are EMIT's two cases on the last entry's polarity. -/
theorem oneBitByTheLevelBefore : Obligations.OneBitByTheLevelBefore := by
  refine ⟨fun seq s hodd => ?_, fun seq s heven => ?_, rfl, rfl, fun seq out b => level_of_emitBit⟩
  · simp [emitBit_snoc, pol, hodd, secondHalf]
  · simp [emitBit_snoc, pol, heven, secondHalf]

/-! ## What ENCODE_BITS can give (R92) -/

section
variable {code : Code} {n : Nat} {seq out : List Nat}

/-- ENCODE_BITS appends to the last entry's tail. An empty sequence stays empty without a bit, and else
takes a first bit 0 as a mark of no length would. -/
theorem encodeBits_ok_cases (h : encodeBits code n seq = .ok out) :
    (∃ pre x, seq = pre ++ [x] ∧ out = pre ++ bitsTail code n (pol pre.length) x)
    ∨ (seq = [] ∧ n = 0 ∧ out = [])
    ∨ (seq = [] ∧ ∃ k, n = k + 1 ∧ code.getLsbD k = false ∧ out = bitsTail code n .mark 0) := by
  rcases List.eq_nil_or_concat seq with rfl | ⟨pre, x, rfl⟩
  · rw [encodeBits_nil] at h
    cases n with
    | zero =>
      cases h
      exact .inr (.inl ⟨rfl, rfl, rfl⟩)
    | succ k =>
      cases hb : code.getLsbD k with
      | true => simp [hb] at h
      | false =>
        simp only [hb, Bool.false_eq_true, ite_false, Except.ok.injEq] at h
        refine .inr (.inr ⟨rfl, k, rfl, hb, ?_⟩)
        rw [bitsTail, hb, ← h]
        rfl
  · rw [List.concat_eq_append, encodeBits_snoc] at h
    cases h
    exact .inl ⟨pre, x, by simp, rfl⟩

/-- ENCODE_BITS fails only on a space at index 0 (R91, R94.2). -/
theorem exists_encodeBits (h : ¬ (seq = [] ∧ 1 ≤ n ∧ code.getLsbD (n - 1) = true)) :
    ∃ out, encodeBits code n seq = .ok out := by
  rcases List.eq_nil_or_concat seq with rfl | ⟨pre, x, rfl⟩
  · cases n with
    | zero => exact ⟨_, rfl⟩
    | succ k =>
      have hb : code.getLsbD k = false := by simpa using h
      exact ⟨_, by simp only [encodeBits_nil, hb]; rfl⟩
  · exact ⟨_, by rw [List.concat_eq_append, encodeBits_snoc]⟩

/-! ## The waveform (R90, R91) -/

theorem waveformFrom_append (j : Nat) (a b : List Nat) :
    waveformFrom j (a ++ b) = waveformFrom j a ++ waveformFrom (j + a.length) b := by
  induction a generalizing j with
  | nil => rfl
  | cons d ds ih =>
    rw [List.cons_append, waveformFrom_cons, waveformFrom_cons, ih, List.append_assoc,
      List.length_cons, Nat.add_assoc, Nat.add_comm 1]

/-- A closing mark of no length adds nothing to the waveform. -/
theorem waveformFrom_closedTail_zero (code : Code) (k j : Nat) (lev : Polarity) (x : Nat) :
    waveformFrom j (closedTail code 0 [] k lev x) = waveformFrom j (bitsTail code k lev x) := by
  induction k generalizing j lev x with
  | zero => cases lev <;> simp [closedTail, bitsTail, waveformFrom_cons]
  | succ k ih =>
    rw [closedTail, bitsTail]
    split <;> simp only [waveformFrom_cons, ih]

/-- The tail is, half unit by half unit, its first entry and the halves of the bits. -/
theorem waveformFrom_bitsTail (code : Code) (k j x : Nat) :
    waveformFrom j (bitsTail code k (pol j) x)
      = List.replicate x (pol j) ++ payloadHalves code k := by
  rw [← waveformFrom_closedTail_zero, waveformFrom_closedTail]
  simp

theorem waveform_encodeBits (h : encodeBits code n seq = .ok out) :
    waveform out = waveform seq ++ payloadHalves code n := by
  rcases encodeBits_ok_cases h with ⟨pre, x, rfl, rfl⟩ | ⟨rfl, rfl, rfl⟩ | ⟨rfl, -, -, -, rfl⟩
  · simp [waveform, waveformFrom_append, waveformFrom_bitsTail, waveformFrom_cons]
  · rfl
  · exact waveformFrom_bitsTail code n 0 0

/-! ## Units and entries (R94) -/

/-- The polarity of the last entry, as the "previous bit" of R94.4. -/
theorem pol_eq_secondHalf_levelBit (j : Nat) : pol j = secondHalf (levelBit (j + 1)) := by
  unfold pol secondHalf levelBit
  rcases Nat.mod_two_eq_zero_or_one j with h | h
  · simp [h, show (j + 1) % 2 = 1 by omega]
  · simp [h, show (j + 1) % 2 = 0 by omega]

theorem length_encodeBits (h : encodeBits code n seq = .ok out) :
    out.length = seq.length + entriesAdded code n (levelBit seq.length) := by
  rcases encodeBits_ok_cases h with ⟨pre, x, rfl, rfl⟩ | ⟨rfl, rfl, rfl⟩ | ⟨rfl, k, rfl, hb, rfl⟩
  · rw [List.length_append, List.length_append, List.length_singleton, pol_eq_secondHalf_levelBit,
      length_bitsTail]
    omega
  · rfl
  · have hafter := length_bitsTail code (k + 1) true 0
    rw [entriesAdded, hb] at hafter ⊢
    exact hafter.trans (by simp [levelBit]; omega)

/-- Every bit adds two units, its two halves (R94.1). -/
theorem sum_encodeBits (h : encodeBits code n seq = .ok out) : out.sum = seq.sum + 2 * n := by
  have hlength := congrArg List.length (waveform_encodeBits h)
  rwa [waveform, waveform, List.length_append, length_waveformFrom, length_waveformFrom,
    length_payloadHalves] at hlength

/-- The first half extends the entry before it exactly when it has its polarity (R91, R94.5). -/
theorem head?_bitsTail (code : Code) (n : Nat) (prev : Bool) (x : Nat) :
    (bitsTail code n (secondHalf prev) x).head?
      = some (if 1 ≤ n ∧ code.getLsbD (n - 1) ≠ prev then x + 1 else x) := by
  cases n with
  | zero => rfl
  | succ k =>
    simp only [bitsTail, secondHalf_inj, Nat.add_sub_cancel]
    by_cases hb : prev = code.getLsbD k
    · simp [hb]
    · simp [hb, Ne.symm hb]

/-- What becomes of the last entry (R94.5). -/
theorem encodeBits_getElem?_last (h : encodeBits code n seq = .ok out) {j x : Nat}
    (hj : j + 1 = seq.length) (hx : seq[j]? = some x) :
    out[j]? = some (if 1 ≤ n ∧ code.getLsbD (n - 1) ≠ levelBit seq.length then x + 1 else x) := by
  rcases encodeBits_ok_cases h with ⟨pre, y, rfl, rfl⟩ | ⟨rfl, -⟩ | ⟨rfl, -⟩
  · obtain rfl : j = pre.length := by simpa using hj
    obtain rfl : y = x := by simpa using hx
    rw [List.getElem?_append_right (Nat.le_refl _), Nat.sub_self, ← List.head?_eq_getElem?,
      pol_eq_secondHalf_levelBit, head?_bitsTail, ← hj]
  · simp at hj
  · simp at hj

/-- Every entry ENCODE_BITS creates is 1 or 2 units (R94.6). -/
theorem encodeBits_new_entry (h : encodeBits code n seq = .ok out) {j d : Nat}
    (hj : seq.length ≤ j) (hd : out[j]? = some d) : d = 1 ∨ d = 2 := by
  rcases encodeBits_ok_cases h with ⟨pre, x, rfl, rfl⟩ | ⟨-, -, rfl⟩ | ⟨-, k, rfl, hb, rfl⟩
  · obtain ⟨y, t, ht, -, -, hnew⟩ := bitsTail_entries code n (pol pre.length) x
    rw [List.length_append, List.length_singleton] at hj
    obtain ⟨i, rfl⟩ : ∃ i, j = pre.length + (i + 1) := ⟨j - pre.length - 1, by omega⟩
    rw [ht, List.getElem?_append_right (by omega), Nat.add_sub_cancel_left,
      List.getElem?_cons_succ] at hd
    exact hnew d (List.mem_of_getElem? hd)
  · simp at hd
  · obtain ⟨y, t, ht, hlo, hhi, hnew⟩ := bitsTail_entries code k .space 1
    have hout : bitsTail code (k + 1) .mark 0 = 1 :: y :: t := by
      rw [bitsTail, hb, ← ht]
      rfl
    have hmem := List.mem_of_getElem? hd
    rw [hout, List.mem_cons, List.mem_cons] at hmem
    rcases hmem with rfl | rfl | hmem
    · exact .inl rfl
    · omega
    · exact hnew d hmem

end

/-- Settles O29. -/
theorem encodingKeepsTheWaveform : Obligations.EncodingKeepsTheWaveform :=
  fun _ _ _ => ⟨fun hne => exists_encodeBits fun h => hne h.1, fun _ => waveform_encodeBits⟩

/-- Settles O30. -/
theorem encodingAddsShortEntries : Obligations.EncodingAddsShortEntries := by
  intro code n seq out h
  refine ⟨sum_encodeBits h, length_encodeBits h, fun j => encodeBits_getElem?_of_lt h,
    fun j hj => ?_, fun j d => encodeBits_new_entry h⟩
  have hx := List.getElem?_eq_getElem (l := seq) (show j < seq.length by omega)
  refine ⟨_, _, hx, encodeBits_getElem?_last h hj hx, ?_⟩
  split <;> omega

/-! ## Minimality (R94.7, R94.8) -/

/-- The number of runs of one polarity in a waveform. -/
def runs : List Polarity → Nat
  | [] => 0
  | p :: w => (if w.head? = some p then 0 else 1) + runs w

/-- How long a run is does not matter. -/
theorem runs_replicate_succ_append (d : Nat) (p : Polarity) (w : List Polarity) :
    runs (List.replicate (d + 1) p ++ w) = runs (p :: w) := by
  induction d with
  | zero => rfl
  | succ d ih => simpa [List.replicate_succ, runs] using ih

/-- An entry is at most one run more. -/
theorem runs_replicate_append_le (d : Nat) (p : Polarity) (w : List Polarity) :
    runs (List.replicate d p ++ w) ≤ runs w + 1 := by
  cases d with
  | zero => exact Nat.le_succ _
  | succ d =>
    rw [runs_replicate_succ_append, runs]
    split <;> omega

/-- A list has no fewer entries than its waveform has runs. -/
theorem runs_waveformFrom_le (j : Nat) (seq : List Nat) :
    runs (waveformFrom j seq) ≤ seq.length := by
  induction seq generalizing j with
  | nil => exact Nat.le_refl _
  | cons d ds ih =>
    exact (runs_replicate_append_le d (pol j) _).trans (Nat.succ_le_succ (ih (j + 1)))

/-- Where every entry has some length, each is a run, because the polarity alternates. -/
theorem runs_waveformFrom_eq {j : Nat} {seq : List Nat} (h : ∀ d ∈ seq, 0 < d) :
    runs (waveformFrom j seq) = seq.length := by
  induction seq generalizing j with
  | nil => rfl
  | cons d ds ih =>
    obtain ⟨hd, hds⟩ := List.forall_mem_cons.1 h
    have halternates : (waveformFrom (j + 1) ds).head? ≠ some (pol j) := by
      cases ds with
      | nil => simp
      | cons e es =>
        obtain ⟨e, rfl⟩ := Nat.exists_eq_add_one.2 (hds e (List.mem_cons_self ..))
        rw [waveformFrom_cons, List.replicate_succ, List.cons_append, List.head?_cons, pol_succ]
        cases pol j <;> simp [Polarity.flip]
    obtain ⟨d, rfl⟩ := Nat.exists_eq_add_one.2 hd
    rw [waveformFrom_cons, runs_replicate_succ_append, runs, if_neg halternates, ih hds,
      List.length_cons, Nat.add_comm]

/-- ENCODE_BITS leaves no entry of length 0 where there was none (R94.5, R94.6). -/
theorem encodeBits_pos {code : Code} {n : Nat} {seq out : List Nat}
    (h : encodeBits code n seq = .ok out) (hseq : ∀ d ∈ seq, 0 < d) : ∀ d ∈ out, 0 < d := by
  intro d hd
  obtain ⟨j, hj⟩ := List.mem_iff_getElem?.1 hd
  rcases Nat.lt_trichotomy (j + 1) seq.length with hlt | hlast | hnew
  · rw [encodeBits_getElem?_of_lt h hlt] at hj
    exact hseq d (List.mem_of_getElem? hj)
  · have hx := List.getElem?_eq_getElem (l := seq) (show j < seq.length by omega)
    have hpos := hseq _ (List.mem_of_getElem? hx)
    rw [encodeBits_getElem?_last h hlast hx, Option.some.injEq] at hj
    split at hj <;> omega
  · have := encodeBits_new_entry h (by omega) hj
    omega

/-- Settles O31: the result has as many entries as its waveform has runs, and no list has fewer. -/
theorem encodingIsMinimal : Obligations.EncodingIsMinimal := by
  intro code n seq out other hseq h hwave
  calc out.length = runs (waveform out) := (runs_waveformFrom_eq (encodeBits_pos h hseq)).symm
    _ = runs (waveform other) := by rw [hwave]
    _ ≤ other.length := runs_waveformFrom_le 0 other

end Sys2Proof.Machine
end

section
/-! PROOFS. MENC (R95): the encoder on the entries of TXBUF, and what is stored back. -/

namespace Sys2Proof.Machine

open Sys2Proof.Spec

/-! ## TXBUF and its working copy -/

theorem State.getElem?_txSeq (s : State) {n j : Nat} (h : j < n) :
    (s.txSeq n)[j]? = some (s.txAt j).toNat := by
  rw [List.getElem?_eq_getElem (by simpa using h), State.getElem_txSeq]

/-- An entry of a stored sequence reads back, when it fits 16 bits (R43). -/
theorem State.toNat_txAt_storeTx (s : State) {seq : List Nat} {j d : Nat} (hj : seq[j]? = some d)
    (hd : d < 2 ^ 16) : ((s.storeTx seq).txAt j).toNat = d := by
  obtain ⟨hlt, rfl⟩ := List.getElem?_eq_some_iff.1 hj
  rw [State.txAt_storeTx, dif_pos hlt, BitVec.toNat_ofNat, Nat.mod_eq_of_lt hd]

/-- An entry stored back unchanged stays (R57). -/
theorem State.txAt_storeTx_of_eq (s : State) {seq : List Nat} {j : Nat}
    (hj : seq[j]? = some (s.txAt j).toNat) : (s.storeTx seq).txAt j = s.txAt j :=
  BitVec.eq_of_toNat_eq (s.toNat_txAt_storeTx hj (s.txAt j).isLt)

/-! ## When MENC raises an error (R121) -/

theorem badEncodeArgs_iff_badEncode (s : State) : s.badEncodeArgs = true ↔ BadEncode s :=
  badEncodeArgs_iff s

/-- MENC's sequence is encoded unless a space would come first (R91, R95). -/
theorem exists_encodeBits_txSeq {s : State} (h : ¬ EmptySpace s) :
    ∃ seq, encodeBits s.codeIn s.bits.toNat (s.txSeq s.txLen.toNat) = .ok seq := by
  refine exists_encodeBits fun ⟨hempty, hfirst⟩ => h ⟨?_, hfirst⟩
  rw [← s.length_txSeq s.txLen.toNat, hempty, List.length_nil]

section
variable {s : State} {seq : List Nat}
  (he : encodeBits s.codeIn s.bits.toNat (s.txSeq s.txLen.toNat) = .ok seq)
include he

/-- The length of what MENC encodes (R94.3, R94.4). -/
theorem length_mencSeq : seq.length = mencLength s := by
  have hlength := length_encodeBits he
  rwa [State.length_txSeq] at hlength

/-- Entries before the last are those of TXBUF (R94.5). -/
theorem mencSeq_getElem?_of_lt {j : Nat} (hj : j + 1 < s.txLen.toNat) :
    seq[j]? = some (s.txAt j).toNat := by
  rw [encodeBits_getElem?_of_lt he (by simpa using hj), s.getElem?_txSeq (by omega)]

/-- The last entry grows by one exactly when the first half extends it (R91, R94.5). -/
theorem mencSeq_getElem?_last (hlen : 1 ≤ s.txLen.toNat) :
    (ExtendsLast s → seq[s.txLen.toNat - 1]? = some ((s.txAt (s.txLen.toNat - 1)).toNat + 1))
    ∧ (¬ ExtendsLast s → seq[s.txLen.toNat - 1]? = some (s.txAt (s.txLen.toNat - 1)).toNat) := by
  have hlast := encodeBits_getElem?_last he (by rw [State.length_txSeq]; omega)
    (s.getElem?_txSeq (show s.txLen.toNat - 1 < s.txLen.toNat by omega))
  rw [State.length_txSeq] at hlast
  exact ⟨fun hext => hlast.trans (congrArg some (if_pos hext.2)),
    fun hext => hlast.trans (congrArg some (if_neg fun h => hext ⟨hlen, h⟩))⟩

/-- Only the last entry can outgrow 16 bits: those before it are TXBUF's, and the new ones are short
(R94.5, R94.6). -/
theorem mencSeq_entry_lt (h : ¬ Overflows s) : ∀ d ∈ seq, d < 2 ^ 16 := by
  intro d hd
  obtain ⟨j, hj⟩ := List.mem_iff_getElem?.1 hd
  rcases Nat.lt_trichotomy (j + 1) s.txLen.toNat with hlt | hlast | hnew
  · cases (mencSeq_getElem?_of_lt he hlt).symm.trans hj
    exact (s.txAt j).isLt
  · obtain rfl : j = s.txLen.toNat - 1 := by omega
    obtain ⟨hgrows, hstays⟩ := mencSeq_getElem?_last he (by omega)
    have hfits := (s.txAt (s.txLen.toNat - 1)).isLt
    by_cases hext : ExtendsLast s
    · cases (hgrows hext).symm.trans hj
      have hfull : (s.txAt (s.txLen.toNat - 1)).toNat ≠ 0xFFFF := fun hfull => h (.inr ⟨hext, hfull⟩)
      omega
    · cases (hstays hext).symm.trans hj
      exact hfits
  · have := encodeBits_new_entry he (by rw [State.length_txSeq]; omega) hj
    omega

/-- MENC's result fits into TXBUF (R95). -/
theorem txOverflows_mencSeq (h : ¬ Overflows s) : txOverflows s.params.txCap seq = false := by
  have hlength : seq.length ≤ s.params.txCap :=
    (length_mencSeq he).trans_le (Nat.not_lt.1 fun hlong => h (.inl hlong))
  have hentries := mencSeq_entry_lt he h
  simp only [txOverflows, Bool.or_eq_false_iff, decide_eq_false_iff_not, List.any_eq_false,
    decide_eq_true_eq]
  exact ⟨Nat.not_lt.2 hlength, fun d hd => Nat.not_lt.2 (Nat.le_of_lt_succ (hentries d hd))⟩

/-- Where MENC raises no error it stores its sequence and its length (R95). -/
theorem exec_menc (ha : ¬ BadEncode s) (ho : txOverflows s.params.txCap seq = false) :
    exec .menc s
      = .next { s.storeTx seq with txLen := BitVec.ofNat 16 seq.length, err := .ok } := by
  rw [exec_eq_finish, bodyOf, mencBody_eq, if_neg (mt (badEncodeArgs_iff_badEncode s).1 ha), he]
  change finish s (s.storeEncoded seq) = _
  rw [State.storeEncoded, ho]
  rfl

end

/-! ## The statements -/

/-- Settles O32: without an error MENC's sequence is stored whole, so its entries are TXBUF's. -/
theorem mencAppendsTheBits : Obligations.MencAppendsTheBits := by
  intro s hp ha hempty ho
  obtain ⟨-, hcap, -⟩ := hp
  obtain ⟨seq, he⟩ := exists_encodeBits_txSeq hempty
  have hfits := txOverflows_mencSeq he ho
  obtain ⟨hlength, hentries⟩ := txOverflows_eq_false hfits
  have hlen : (BitVec.ofNat 16 seq.length).toNat = seq.length := toNat_ofNat_length (by omega)
  refine ⟨_, exec_menc he ha hfits, rfl, hlen.trans (length_mencSeq he), ?waveform, ?stays, ?last⟩
  case waveform =>
    change waveform ((s.storeTx seq).txSeq (BitVec.ofNat 16 seq.length).toNat) = _
    rw [hlen, State.txSeq_storeTx s seq hentries, waveform_encodeBits he]
  case stays =>
    rintro j (hbefore | hbeyond)
    · exact s.txAt_storeTx_of_eq (mencSeq_getElem?_of_lt he hbefore)
    · exact (s.txAt_storeTx seq j).trans (dif_neg (Nat.not_lt.2 (hlen.symm.trans_le hbeyond)))
  case last =>
    intro hpos
    obtain ⟨hgrows, hstays⟩ := mencSeq_getElem?_last he hpos
    refine ⟨fun hext => ?_, fun hext => s.txAt_storeTx_of_eq (hstays hext)⟩
    exact s.toNat_txAt_storeTx (hgrows hext) (hentries _ (List.mem_of_getElem? (hgrows hext)))

/-- Settles O33: without a bit MENC's sequence is TXBUF's, so nothing can overflow. -/
theorem mencOfNoBitsChangesNothing : Obligations.MencOfNoBitsChangesNothing := by
  intro s hbits hlen
  have hzero : s.bits.toNat = 0 := by rw [hbits]; rfl
  have he : encodeBits s.codeIn s.bits.toNat (s.txSeq s.txLen.toNat)
      = .ok (s.txSeq s.txLen.toNat) := by
    rw [hzero]
    rfl
  have ha : ¬ BadEncode s := by
    unfold BadEncode
    omega
  have hext : ¬ ExtendsLast s := fun ⟨_, hbit, _⟩ => by omega
  have ho : ¬ Overflows s := by
    rintro (hlong | ⟨hgrows, -⟩)
    · rw [← length_mencSeq he, State.length_txSeq] at hlong
      omega
    · exact hext hgrows
  refine ⟨_, exec_menc he ha (txOverflows_mencSeq he ho), ?_, fun j => ?_⟩
  · rw [State.length_txSeq, BitVec.ofNat_toNat, BitVec.setWidth_eq]
    rfl
  · by_cases hj : j < s.txLen.toNat
    · exact s.txAt_storeTx_of_eq (s.getElem?_txSeq hj)
    · exact (s.txAt_storeTx _ j).trans (dif_neg (by rwa [State.length_txSeq]))

end Sys2Proof.Machine
end

section
/-! PROOFS. The frame encoder (R99, R100): how long a frame is, what FRENC leaves in TXBUF and for how long
it is sent, and FRDEC on a jittered capture of it. -/

namespace Sys2Proof.Machine

open Sys2Proof.Spec

/-! ## FRDEC on what was sent (R102, R111, R113) -/

/-- Settles O58: the capture in units is the frame sent, so the scan finds its code three times, and that
code is not the sentinel. -/
theorem jitteredFrameIsReceived : Obligations.JitteredFrameIsReceived := by
  intro n s t r h
  obtain ⟨units, hdecode⟩ := frameDec_frame (pack_toNat_lt s.cfg n) (frame_of_received h)
  rw [State.length_normalised] at hdecode
  obtain ⟨hsent, -, hgood, -⟩ := h
  obtain ⟨f, -, hexec⟩ := exec_frameEncoder n s
  cases hexec.symm.trans hsent
  have hvote : noConsensus (pack s.cfg n) = false := beq_eq_false_iff_ne.2 (pack_ne_zero s.cfg n)
  refine ⟨_, exec_frdec hgood, ?_⟩
  rw [hdecode]
  exact ⟨rfl, rfl, rfl, rfl, rfl, hvote, rfl⟩

/-! ## The length of a frame (R99) -/

/-- R99: with bit 0 clear the length is three repetitions and the sentinel. -/
theorem length_frame {code : Code} (h : code.getLsbD 0 = false) {f : List Nat}
    (hf : frame code = .ok f) : f.length = 3 * repetitionLength code + 1 := by
  cases (frame_eq_repetitionEntries h).symm.trans hf
  simp only [List.length_append, length_repetitionEntries, List.length_singleton]
  omega

theorem transitions_le (code : Code) : transitions code ≤ 33 :=
  (List.length_filter_le ..).trans List.length_range.le

/-- At most 33 transitions and bit 33 shorten a repetition (R99). -/
theorem repetitionLength_bounds (code : Code) :
    36 ≤ repetitionLength code ∧ repetitionLength code ≤ 70 := by
  have hchanges := transitions_le code
  have hbit : bitOf code 33 < 2 := Nat.mod_lt _ (by decide)
  unfold repetitionLength
  omega

/-- Settles O36: the bounds are those of a repetition; every bit of 0x2AAAAAAAA differs from the next, and no
bit of 0 does. -/
theorem frameLengthBounds : Obligations.FrameLengthBounds := by
  have hlength {c : Code} {l : Nat} (h : c.getLsbD 0 = false) (hl : 3 * repetitionLength c + 1 = l) :
      ∃ f, frame c = .ok f ∧ f.length = l :=
    ⟨_, frame_eq c, (length_frame h (frame_eq c)).trans hl⟩
  refine ⟨fun c h => ?_, hlength (by decide) (by decide), hlength (by decide) (by decide)⟩
  have hbounds := repetitionLength_bounds c
  refine ⟨_, frame_eq c, ?_⟩
  rw [length_frame h (frame_eq c)]
  omega

/-! ## What the frame encoder leaves (R100) -/

/-- PACK never sets bit 0 (R71). -/
theorem getLsbD_zero_pack (c : Cfg) (n : Bool) : (pack c n).getLsbD 0 = false := by
  have hbit : bitOf (pack c n) 0 = 0 := by
    rw [bitOf, pack_toNat, packedValue]
    split <;> omega
  rwa [bitOf_eq_toNat, Bool.toNat_eq_zero] at hbit

theorem ofNat_packedValue (c : Cfg) (n : Bool) : BitVec.ofNat 64 (packedValue c n) = pack c n := by
  rw [← pack_toNat, BitVec.ofNat_toNat, BitVec.setWidth_eq]

/-- A stored frame reads back whole (R100). -/
theorem txSeq_storeTx_frame {code : Code} {f : List Nat} (hf : frame code = .ok f) (s : State) :
    (s.storeTx f).txSeq f.length = f :=
  s.txSeq_storeTx f fun _ hd => frame_entry_lt hf hd

/-- Settles O37: the frame is stored whole, and its code has bit 0 clear. -/
theorem frencWritesTheFrame : Obligations.FrencWritesTheFrame := by
  intro s n
  obtain ⟨f, hf, hexec⟩ := exec_frameEncoder n s
  have hlength := toNat_ofNat_frame_length hf
  rw [ofNat_packedValue]
  refine ⟨_, f, hexec, rfl, hf, hlength, txSeq_storeTx_frame hf s, ?_, fun j hj => ?_⟩
  · exact hlength.trans (length_frame (getLsbD_zero_pack s.cfg n) hf)
  · exact (s.txAt_storeTx f j).trans (dif_neg (Nat.not_lt.2 hj))

/-! ## How long it is sent (R99, R128) -/

theorem sum_frame {code : Code} {f : List Nat} (hf : frame code = .ok f) : f.sum = 226 := by
  obtain ⟨_, hf', -, hsum⟩ := frameLasts226Units code
  cases hf'.symm.trans hf
  exact hsum

/-- A hand-off lasts as many units of UNIT_US as TXBUF's sequence holds (R128). -/
theorem sum_micros_transmitPulses {s : State} (h : s.txLen.toNat ≤ s.params.txCap) :
    ((transmitPulses s).map Pulse.micros).sum
      = (s.txSeq s.txLen.toNat).sum * s.unitUs.toNat := by
  rw [transmitPulses, Nat.min_eq_left h, State.txSeq, ← List.sum_map_mul_right, List.map_map]
  rfl

/-- Settles O38: a frame fits every legal TX_CAP, so it is handed over whole. -/
theorem sentFrameLasts226Units : Obligations.SentFrameLasts226Units := by
  intro s t n ⟨hcap, _⟩ hsent
  obtain ⟨_, f, hexec, hframe, hf, hlength, hseq, -, -⟩ := frencWritesTheFrame s n
  cases hexec.symm.trans hsent
  have hunit : t.unitUs = s.unitUs := by rw [hframe]
  have hparams : t.params = s.params := by rw [hframe]
  have hfits : t.txLen.toNat ≤ t.params.txCap := by
    rw [hlength, hparams]
    exact (frame_length_le hf).trans hcap
  rw [sum_micros_transmitPulses hfits, hlength, hseq, sum_frame hf, hunit]

end Sys2Proof.Machine
end

section
/-! PROOFS. NORM (R102, R106), and the decoder's loops (R104, R110) with the model's iteration bounds against
the rules' loops without one. -/

namespace Sys2Proof.Machine

open Sys2Proof.Spec

/-! ## A working copy as units -/

/-- A working copy of the first entries of a buffer, seen as units of the whole buffer: `rest` holds the
entries at or beyond the copy's length. -/
def overlay (l : List Nat) (rest : Units) : Units := fun j => l.getD j (rest j)

section
variable {l : List Nat} {rest : Units} {stop j : Nat}

theorem overlay_eq_getD (h : j < l.length) : overlay l rest j = l.getD j 0 := by
  simp [overlay, h]

/-- Within the copy the rules' window read is the model's (R103). -/
theorem rd_overlay (h : stop ≤ l.length) : rd (overlay l rest) stop j = windowRead l stop j := by
  unfold rd windowRead
  split
  · exact overlay_eq_getD (by omega)
  · rfl

/-- Within the copy the rules' write is the model's. -/
theorem setUnit_overlay (h : j < l.length) (v : Nat) :
    setUnit (overlay l rest) j v = overlay (l.set j v) rest := by
  funext k
  by_cases hk : k = j
  · subst hk
    simp [setUnit, overlay, h]
  · simp [setUnit, overlay, hk, List.getElem?_set_ne (Ne.symm hk)]

end

/-- A working copy stored back reads as itself over the entries it does not reach (R57). -/
theorem State.toNat_rxAt_storeRx (s : State) {units : List Nat} (h : ∀ d ∈ units, d < 2 ^ 32)
    (j : Nat) :
    ((s.storeRx units).rxAt j).toNat = overlay units (fun j => (s.rxAt j).toNat) j := by
  rw [State.rxAt_storeRx]
  by_cases hj : j < units.length
  · rw [dif_pos hj, BitVec.toNat_ofNat, Nat.mod_eq_of_lt (h _ (List.getElem_mem hj))]
    simp [overlay, hj]
  · rw [dif_neg hj]
    simp [overlay, hj]

theorem State.rxSeq_lt (s : State) (n : Nat) : ∀ d ∈ s.rxSeq n, d < 2 ^ 32 := by
  simp only [State.rxSeq, List.mem_map]
  rintro d ⟨j, -, rfl⟩
  exact (s.rxAt j).isLt

/-- RX[0..n-1] as a working copy, over RXBUF, is RXBUF. -/
theorem State.overlay_rxSeq (s : State) (n : Nat) :
    overlay (s.rxSeq n) (fun j => (s.rxAt j).toNat) = fun j => (s.rxAt j).toNat := by
  funext j
  by_cases hj : j < n <;> simp [overlay, State.rxSeq, hj]

/-! ## NORM (R101, R102, R106) -/

/-- NORMFN saturates within 32 bits (R101). -/
theorem normFn_lt (tickUs unitUs x : Nat) : normFn tickUs unitUs x < 2 ^ 32 := by
  unfold normFn
  omega

/-- R106: at equal scales NORMFN rounds an exact multiple. -/
theorem normFn_self {unitUs x : Nat} (hunit : 0 < unitUs) (hx : x < 2 ^ 32) :
    normFn unitUs unitUs x = x := by
  have hdiv : (x * unitUs + unitUs / 2) / unitUs = x := by
    rw [Nat.mul_comm, Nat.mul_add_div hunit, Nat.div_eq_of_lt (Nat.div_lt_self hunit (by decide))]
    rfl
  unfold normFn
  omega

theorem State.normalised_lt (s : State) : ∀ d ∈ s.normalised, d < 2 ^ 32 := by
  simp only [State.normalised, List.mem_map]
  rintro d ⟨x, -, rfl⟩
  exact normFn_lt ..

/-- The capture in units over RXBUF: NORMFN below RXLEN, RXBUF itself from there on (R101). -/
theorem State.overlay_normalised (s : State) (j : Nat) :
    overlay s.normalised (fun j => (s.rxAt j).toNat) j
      = if j < s.rxLen.toNat then normFn s.tickUs.toNat s.unitUs.toNat (s.rxAt j).toNat
        else (s.rxAt j).toNat := by
  by_cases hj : j < s.rxLen.toNat <;> simp [overlay, State.normalised, State.rxSeq, hj]

theorem exec_norm {s : State} (h : ¬ BadCapture s) :
    exec .norm s = .next (s.storeRx s.normalised).complete := by
  rw [exec_eq_finish, bodyOf, normBody, if_neg (mt (badCaptureArgs_iff_badCapture s).1 h)]
  rfl

/-- What NORM leaves in an entry (R106). -/
theorem toNat_rxAt_norm (s : State) (j : Nat) :
    ((s.storeRx s.normalised).complete.rxAt j).toNat
      = if j < s.rxLen.toNat then normFn s.tickUs.toNat s.unitUs.toNat (s.rxAt j).toNat
        else (s.rxAt j).toNat :=
  (s.toNat_rxAt_storeRx s.normalised_lt j).trans (s.overlay_normalised j)

/-- A legal capture has a unit to divide by (R101). -/
theorem unitUs_pos {s : State} (h : ¬ BadCapture s) : 0 < s.unitUs.toNat :=
  Nat.pos_of_ne_zero fun hzero => h (.inr (.inl hzero))

/-- Settles O39: NORM stores NORMFN of each entry, whose window is R102's. -/
theorem normRoundsToTheNearestUnit : Obligations.NormRoundsToTheNearestUnit := by
  intro s h
  refine ⟨_, exec_norm h, rfl, fun j n hj hn => ?_, fun j hj => BitVec.eq_of_toNat_eq ?_⟩
  · rw [toNat_rxAt_norm, if_pos hj]
    exact normFn_eq_iff (unitUs_pos h) hn
  · rw [toNat_rxAt_norm, if_neg (Nat.not_lt.2 hj)]

/-- Settles O40: NORMFN is the identity at equal scales. -/
theorem normIsIdentityAtEqualScales : Obligations.NormIsIdentityAtEqualScales := by
  intro s h hscale
  refine ⟨_, exec_norm h, fun j => BitVec.eq_of_toNat_eq ?_⟩
  rw [toNat_rxAt_norm, hscale, normFn_self (unitUs_pos h) (s.rxAt j).isLt, ite_self]

/-! ## The payload decode (R103, R104) -/

theorem pushDecoded_eq_pushBit (acc : Code) (ph : Polarity) : pushDecoded acc ph = pushBit acc ph := by
  apply BitVec.eq_of_toNat_eq
  cases ph <;> simp [pushDecoded, pushBit]

/-- The loop with enough iterations for its window does what the rule's loop does, in no more of them. -/
theorem mdecLoop_payloadDecode (rest : Units) {stop : Nat} (fuel : Nat) (l : List Nat) (i : Nat)
    (ph : Polarity) (acc : Code) (hstop : stop ≤ l.length) (hfuel : stop - i + 1 ≤ fuel) :
    ∃ k ≤ fuel, PayloadDecode stop (overlay l rest) i ph acc k
      (mdecLoop fuel l stop i ph acc).1 (overlay (mdecLoop fuel l stop i ph acc).2 rest) := by
  induction fuel generalizing l i ph acc with
  | zero => omega
  | succ fuel ih =>
    have hrd (j : Nat) : rd (overlay l rest) stop j = windowRead l stop j := rd_overlay hstop
    simp only [mdecLoop]
    split
    · next hv =>
      obtain ⟨hv, hnx⟩ := hv
      have hlt : i + 1 < stop := (getElem?_of_windowRead_pos hnx).1
      rw [← pushDecoded_eq_pushBit]
      split
      · next hone =>
        obtain ⟨k, hk, hrest⟩ := ih l (i + 2) ph (pushDecoded acc ph) hstop (by omega)
        exact ⟨k + 1, by omega, .fullSymbol ((hrd _).trans hv) ((hrd _).trans hone) hrest⟩
      · next hlong =>
        obtain ⟨k, hk, hrest⟩ := ih (l.set (i + 1) (windowRead l stop (i + 1) - 1)) (i + 1) ph.flip
          (pushDecoded acc ph) (by rwa [List.length_set]) (by omega)
        refine ⟨k + 1, by omega, .borrow ((hrd _).trans hv) ?_ ?_⟩
        · rw [hrd]
          omega
        · rwa [hrd, setUnit_overlay (by omega)]
    · next hv =>
      simp only [← hrd] at hv ⊢
      split
      · next hend => exact ⟨1, by omega, .stopEntry hend⟩
      · next hend =>
        exact ⟨1, by omega, .failure hv (fun h => hend (.inl h)) (fun h => hend (.inr h))⟩

/-- MDECFN on a working copy is the rule's loop, within R104's bound. -/
theorem mdecFn_payloadDecode (rest : Units) {l : List Nat} {stop : Nat} (start : Nat)
    (hstop : stop ≤ l.length) :
    ∃ k ≤ stop - start + 1, PayloadDecode stop (overlay l rest) start (polarityOf start) 0 k
      (mdecFn l start stop).1 (overlay (mdecFn l start stop).2 rest) :=
  mdecLoop_payloadDecode rest _ l start (pol start) 0 hstop (Nat.le_refl _)

/-- A decode raises no entry (R105). -/
theorem mdecFn_lt {l : List Nat} {bound : Nat} (h : ∀ d ∈ l, d < bound) (start stop : Nat) :
    ∀ d ∈ (mdecFn l start stop).2, d < bound := by
  intro d hd
  obtain ⟨j, hj⟩ := List.mem_iff_getElem?.1 hd
  rcases mdecFn_entry l start stop j with hkept | ⟨-, -, d', hold, -, hnew⟩
  · exact h d (List.mem_of_getElem? (hkept.symm.trans hj))
  · cases hnew.symm.trans hj
    have := h _ (List.mem_of_getElem? hold)
    omega

theorem exec_mdec {s : State} (h : ¬ BadWindow s) :
    exec .mdec s = .next (State.complete
      { s.storeRx (mdecFn (s.rxSeq s.endIdx.toNat) s.start.toNat s.endIdx.toNat).2 with
        result := (mdecFn (s.rxSeq s.endIdx.toNat) s.start.toNat s.endIdx.toNat).1 }) := by
  rw [exec_eq_finish, bodyOf, mdecBody, if_neg (mt (badWindowArgs_iff s).1 h)]
  rfl

/-- Settles O41: the working copy RX[0..END-1] over RXBUF is RXBUF. -/
theorem mdecRunsTheStepList : Obligations.MdecRunsTheStepList := by
  intro s h
  obtain ⟨k, hk, hdecode⟩ := mdecFn_payloadDecode (fun j => (s.rxAt j).toNat) s.start.toNat
    (s.length_rxSeq s.endIdx.toNat).ge
  rw [s.overlay_rxSeq] at hdecode
  exact ⟨_, k, _, exec_mdec h, hdecode, hk,
    s.toNat_rxAt_storeRx (mdecFn_lt (s.rxSeq_lt _) _ _), rfl⟩

theorem rd_beyond {u : Units} {stop j : Nat} (h : stop ≤ j) : rd u stop j = 0 :=
  if_neg (Nat.not_lt.2 h)

/-- From the window's end on, the loop fails at once (R104, R107). -/
theorem payloadDecode_beyond {u u' : Units} {stop i k : Nat} {ph : Polarity} {acc res : Code}
    (hi : stop ≤ i) (h : PayloadDecode stop u i ph acc k res u') : res = 0 ∧ u' = u := by
  have hzero : rd u stop i = 0 := rd_beyond hi
  cases h with
  | failure => exact ⟨rfl, rfl⟩
  | fullSymbol hv | borrow hv | stopEntry hv => omega

/-- Settles O43: an empty window is one at or beyond its end. -/
theorem emptyWindowDecodesToZero : Obligations.EmptyWindowDecodesToZero := by
  intro s h hempty
  obtain ⟨t, k, u', hexec, hdecode, -, hrx, hframe⟩ := mdecRunsTheStepList s h
  obtain ⟨hresult, rfl⟩ := payloadDecode_beyond hempty hdecode
  exact ⟨t, hexec, by rw [hframe], hresult, fun j => BitVec.eq_of_toNat_eq (hrx j)⟩

/-! ## The frame scan (R108, R110, R113) -/

/-- The scan with enough passes for its working copy does what the rule's loop does. -/
theorem scanLoop_frameScan (rest : Units) {n : Nat} (fuel k : Nat) (reps : List Code) (l : List Nat)
    (hlen : n = l.length) (hfuel : n ≤ k + fuel) :
    FrameScan n k reps (overlay l rest)
      (scanLoop n fuel k reps l).1 (overlay (scanLoop n fuel k reps l).2 rest) := by
  induction fuel generalizing k reps l with
  | zero => exact .finished (by omega)
  | succ fuel ih =>
    simp only [scanLoop]
    split
    · next hpass =>
      obtain ⟨hreps, hk⟩ := hpass
      have hmark : overlay l rest k = l.getD k 0 := overlay_eq_getD (by omega)
      have hspace : overlay l rest (k + 1) = l.getD (k + 1) 0 := overlay_eq_getD (by omega)
      rcases boundaryAt_cases l k with
        ⟨heven, hm, hs, hb⟩ | ⟨heven, hm, hs, hb⟩ | ⟨hnone, hb⟩ <;> rw [hb]
      · obtain ⟨_, -, hdecode⟩ := mdecFn_payloadDecode rest (l := l) (k + 2) hlen.le
        exact .ordinary hreps hk heven (hmark.trans hm) (hspace.trans hs) hdecode
          (ih _ _ _ (by simpa using hlen) (by omega))
      · obtain ⟨_, -, hdecode⟩ := mdecFn_payloadDecode rest (l := l.set (k + 1) 1) (stop := n) (k + 1)
          (by simpa using hlen.le)
        rw [← setUnit_overlay (by omega)] at hdecode
        exact .merged hreps hk heven (hmark.trans hm) (hspace.trans hs) hdecode
          (ih _ _ _ (by simpa using hlen) (by omega))
      · refine .skip hreps hk ?_ (ih _ _ _ hlen (by omega))
        rwa [hmark, hspace]
    · next hdone => exact .finished hdone

/-- A scan raises no entry above 1: a merged boundary leaves 1 unit of its space (R108). -/
theorem scanLoop_lt {bound : Nat} (hbound : 1 < bound) (n fuel k : Nat) (reps : List Code)
    {l : List Nat} (h : ∀ d ∈ l, d < bound) :
    ∀ d ∈ (scanLoop n fuel k reps l).2, d < bound := by
  induction fuel generalizing k reps l with
  | zero => exact h
  | succ fuel ih =>
    simp only [scanLoop]
    split
    · rcases boundaryAt_cases l k with ⟨-, -, -, hb⟩ | ⟨-, -, -, hb⟩ | ⟨-, hb⟩ <;> rw [hb]
      · exact ih _ _ (mdecFn_lt h _ _)
      · refine ih _ _ (mdecFn_lt (fun d hd => ?_) _ _)
        rcases List.mem_or_eq_of_mem_set hd with hd | rfl
        · exact h d hd
        · exact hbound
      · exact ih _ _ h
    · exact h

/-- Settles O44: the working copy of FRDEC is the capture in units over RXBUF. -/
theorem frdecRunsTheScan : Obligations.FrdecRunsTheScan := by
  intro s h
  have hscan := scanLoop_frameScan (fun j => (s.rxAt j).toNat) s.rxLen.toNat 0 [] s.normalised
    s.length_normalised.symm (by omega)
  rw [funext s.overlay_normalised] at hscan
  have hunits : ∀ d ∈ (frameDec s.normalised s.rxLen.toNat).units, d < 2 ^ 32 :=
    scanLoop_lt (by decide) _ _ _ _ s.normalised_lt
  have hcount := frameDec_count s.normalised s.rxLen.toNat
  refine ⟨_, _, _, exec_frdec h, hscan, s.toNat_rxAt_storeRx hunits, rfl, rfl, rfl, ?_, rfl,
    beq_iff_eq, rfl⟩
  exact (BitVec.toNat_ofNat ..).trans (Nat.mod_eq_of_lt (by omega))

end Sys2Proof.Machine
end

section
/-! PROOFS. The frame decoder's statements (R109, R111, R113, R114): the vote, the frame round trip, and the
captures too short for a boundary. -/

namespace Sys2Proof.Machine

open Sys2Proof.Spec

/-! ## The frame round trip (R111) -/

/-- Settles O57: a frame always exists, and its scan finds the code three times. -/
theorem frameRoundTrip : Obligations.FrameRoundTrip := by
  intro code hcode
  have hf := frame_eq code
  obtain ⟨units, hdecode⟩ := frameDec_frame hcode hf
  refine ⟨_, hf, ?_⟩
  rw [hdecode]
  exact ⟨rfl, rfl, rfl, rfl, rfl⟩

/-! ## Captures of 0 or 1 entries (R113) -/

/-- With fewer than two entries left the scan ends (R110). -/
theorem scanLoop_of_le {n k : Nat} (h : n ≤ k + 1) (fuel : Nat) (reps : List Code) (u : List Nat) :
    scanLoop n fuel k reps u = (reps, u) := by
  cases fuel with
  | zero => rfl
  | succ fuel => rw [scanLoop, if_neg fun hpass => Nat.not_lt.2 h hpass.2]

/-- FRAMEDEC of 0 or 1 entries finds no repetition and rewrites nothing. -/
theorem frameDec_of_le_one {n : Nat} (h : n ≤ 1) (u : List Nat) :
    frameDec u n = { res := 0, rep0 := 0, rep1 := 0, rep2 := 0, count := 0, units := u } := by
  rw [frameDec, scanLoop_of_le h]
  rfl

/-- Settles O45: FRDEC stores what FRAMEDEC gives, and FRAMEDEC finds nothing. -/
theorem shortCaptureFindsNothing : Obligations.ShortCaptureFindsNothing := by
  intro s hgood hshort
  refine ⟨_, exec_frdec hgood, ?_⟩
  rw [frameDec_of_le_one hshort]
  exact ⟨rfl, rfl, rfl, rfl, rfl, rfl, rfl⟩

/-! ## The vote (R109, R114) -/

/-- VOTE's next state from every state. -/
theorem exec_vote (s : State) :
    exec .vote s = .next { s with result := majority s.rep0 s.rep1 s.rep2,
                                  nocons := majority s.rep0 s.rep1 s.rep2 == 0, err := .ok } :=
  rfl

section
variable {a b c : Code}

/-- "result[0] wins if it equals result[1] or result[2]". -/
theorem majority_of_first (h : a = b ∨ a = c) : majority a b c = a := if_pos h

/-- "else result[1] wins if it equals result[2]"; where the first wins as well, all three are equal. -/
theorem majority_of_second (h : b = c) : majority a b c = b := by
  subst h
  by_cases hab : a = b
  · exact (majority_of_first (.inl hab)).trans hab
  · rw [majority, if_neg (by simpa using hab), if_pos rfl]

/-- Without a pair the vote fails. -/
theorem majority_of_distinct (hab : a ≠ b) (hac : a ≠ c) (hbc : b ≠ c) : majority a b c = 0 := by
  rw [majority, if_neg (not_or.2 ⟨hab, hac⟩), if_neg hbc]

theorem majority_ne_zero_iff :
    majority a b c ≠ 0 ↔ (a = b ∧ a ≠ 0) ∨ (a = c ∧ a ≠ 0) ∨ (b = c ∧ b ≠ 0) := by
  by_cases hfirst : a = b ∨ a = c
  · rw [majority_of_first hfirst]
    grind
  · obtain ⟨hab, hac⟩ := not_or.1 hfirst
    by_cases hbc : b = c
    · rw [majority_of_second hbc]
      simp [hac, hbc]
    · simp [majority_of_distinct hab hac hbc, hab, hac, hbc]

/-- The order of the first two candidates does not matter. -/
theorem majority_swap_left : majority a b c = majority b a c := by
  by_cases hab : a = b
  · rw [hab]
  · by_cases hac : a = c
    · rw [majority_of_first (.inr hac), majority_of_second hac]
    · by_cases hbc : b = c
      · rw [majority_of_second hbc, majority_of_first (.inr hbc)]
      · rw [majority_of_distinct hab hac hbc, majority_of_distinct (Ne.symm hab) hbc hac]

/-- The order of the last two candidates does not matter. -/
theorem majority_swap_right : majority a b c = majority a c b := by
  by_cases hfirst : a = b ∨ a = c
  · rw [majority_of_first hfirst, majority_of_first hfirst.symm]
  · by_cases hbc : b = c
    · rw [hbc]
    · obtain ⟨hab, hac⟩ := not_or.1 hfirst
      rw [majority_of_distinct hab hac hbc, majority_of_distinct hac hab (Ne.symm hbc)]

end

/-- Settles O46: VOTE stores the majority, and the majority follows the pairs. -/
theorem voteIsTheMajority : Obligations.VoteIsTheMajority :=
  ⟨exec_vote, fun _ _ _ =>
    ⟨majority_ne_zero_iff, fun h => majority_of_first (.inl h), fun h => majority_of_first (.inr h),
      majority_of_second, majority_swap_left, majority_swap_right⟩⟩

end Sys2Proof.Machine
end

section
/-! PROOFS. NOP, and two illegal words with its opcode (R116). -/

namespace Sys2Proof.Machine

open Sys2Proof.Spec

/-- NOP's next state from every state. -/
theorem exec_nop (s : State) : exec .nop s = .next { s with err := .ok } := rfl

theorem encode_nop : encode .nop = 0x00000000 := by decide

/-- "NOP with N = 1": only FENC and FRENC take a notify bit (R68). -/
theorem illegalCommandWord_nopWithNotify : IllegalCommandWord 0x00000010 :=
  .inr (.inr (by decide))

/-- "RSV ≠ 0": a reserved bit is set (R68). -/
theorem illegalCommandWord_nopWithReserved : IllegalCommandWord 0x000000E0 :=
  .inl (by decide)

theorem runCommandWord_of_illegal (s : State) {w : Word} (h : IllegalCommandWord w) :
    runCommandWord s w = .next { s with err := .illegalOp } := by
  obtain ⟨-, hraises, -⟩ := illegalWordsRaiseIllegalOp s w
  exact hraises h

/-- Settles O20: the word of NOP runs it, and the other two words are illegal (R68). -/
theorem nopOnlyClearsErr : Obligations.NopOnlyClearsErr := by
  intro s
  refine ⟨exec_nop s, ?_, runCommandWord_of_illegal s illegalCommandWord_nopWithNotify,
    runCommandWord_of_illegal s illegalCommandWord_nopWithReserved⟩
  rw [← encode_nop, runCommandWord_encode, exec_nop]

end Sys2Proof.Machine
end

section
/-! PROOFS. The error table (R121, R122), and what an error leaves (R123): only STATUS.ERR is written. -/

namespace Sys2Proof.Machine

open Sys2Proof.Spec

/-! ## MENC's errors (R91, R95) -/

section
variable {s : State} {seq : List Nat}
  (he : encodeBits s.codeIn s.bits.toNat (s.txSeq s.txLen.toNat) = .ok seq)
include he

/-- A first bit 1 would put a space at index 0 (R91). -/
theorem not_emptySpace_of_encodeBits : ¬ EmptySpace s := by
  rintro ⟨hlen, hbits, hfirst⟩
  obtain ⟨k, hk⟩ : ∃ k, s.bits.toNat = k + 1 := ⟨s.bits.toNat - 1, by omega⟩
  rw [firstBit, hk, Nat.add_sub_cancel] at hfirst
  rw [hlen, hk, State.txSeq, List.range_zero, List.map_nil, encodeBits_nil] at he
  simp [hfirst] at he

/-- A sequence that fits into TXBUF is no longer than it, and its extended entry had room (R95). -/
theorem not_overflows_of_fits (ho : txOverflows s.params.txCap seq = false) : ¬ Overflows s := by
  obtain ⟨hlength, hentries⟩ := txOverflows_eq_false ho
  rintro (hlong | ⟨hext, hfull⟩)
  · exact Nat.not_lt.2 hlength (hlong.trans_eq (length_mencSeq he).symm)
  · have hlast := (mencSeq_getElem?_last he hext.1).1 hext
    have hroom := hentries _ (List.mem_of_getElem? hlast)
    omega

end

/-! ## The table (R121, R122) -/

section
variable {i : Instr} {s u : State} {e : ErrCode}

/-- A command completes only where the table gives it no error. -/
theorem Completes.endsWith_ok (h : Completes s i u) : EndsWith i s .ok := by
  cases h with
  | nop | fenc | fencN | fdec | frenc | frencN | vote => rfl
  | norm hc | frdec hc | rx hc =>
    exact .inr ⟨mt (badCaptureArgs_iff_badCapture s).2 (ne_true_of_eq_false hc), rfl⟩
  | mdec hw => exact .inr ⟨mt (badWindowArgs_iff s).2 (ne_true_of_eq_false hw), rfl⟩
  | menc ha he ho =>
    exact .inr (.inr (.inr ⟨mt (badEncodeArgs_iff_badEncode s).2 (ne_true_of_eq_false ha),
      not_emptySpace_of_encodeBits he, not_overflows_of_fits he ho, rfl⟩))

/-- MENC checks its arguments first, then encodes, and checks the room last: the order of R122. -/
theorem endsWith_of_mencBody_error (h : mencBody s = .error e) : EndsWith .menc s e := by
  rcases mencBody_cases s with ⟨ha, hb⟩ | ⟨ha, hrest⟩
  · cases hb.symm.trans h
    exact .inl ⟨(badEncodeArgs_iff_badEncode s).1 ha, rfl⟩
  have hargs := mt (badEncodeArgs_iff_badEncode s).2 (ne_true_of_eq_false ha)
  rcases hrest with ⟨e', he, hb⟩ | ⟨seq, he, ⟨ho, hb⟩ | ⟨-, hb⟩⟩ <;> cases hb.symm.trans h
  · have hempty : EmptySpace s := by
      by_contra hne
      obtain ⟨_, hok⟩ := exists_encodeBits_txSeq hne
      cases hok.symm.trans he
    exact .inr (.inl ⟨hargs, hempty, encodeBits_error he⟩)
  · have hover : Overflows s := by
      by_contra hne
      cases (txOverflows_mencSeq he hne).symm.trans ho
    exact .inr (.inr (.inl ⟨hargs, not_emptySpace_of_encodeBits he, hover, rfl⟩))

/-- A command raises only the error the table gives it. -/
theorem endsWith_of_bodyOf_error (h : bodyOf i s = .error e) : EndsWith i s e := by
  rcases bodyOf_error h with ⟨rfl, -⟩ | ⟨rfl, hw, rfl⟩ | ⟨hi, hc, rfl⟩
  · exact endsWith_of_mencBody_error h
  · exact .inl ⟨(badWindowArgs_iff s).1 hw, rfl⟩
  · have hbad := (badCaptureArgs_iff_badCapture s).1 hc
    rcases hi with rfl | rfl | rfl <;> exact .inl ⟨hbad, rfl⟩

/-- No command's row of the table holds ILLEGAL_OP. -/
theorem endsWith_ne_illegalOp (h : EndsWith i s e) : e ≠ .illegalOp := by
  rintro rfl
  cases i <;> simp [EndsWith] at h

end

theorem exec_endsWith (i : Instr) (s : State) : ∃ t, exec i s = .next t ∧ EndsWith i s t.err := by
  rcases exec_cases i s with ⟨u, hu, hx⟩ | ⟨e, he, hx⟩
  · exact ⟨_, hx, hu.endsWith_ok⟩
  · exact ⟨_, hx, endsWith_of_bodyOf_error he⟩

/-! ## What an error leaves (R123) -/

/-- A command ends without an error, or changes nothing but ERR. -/
theorem exec_error_frame {i : Instr} {s t : State} (h : exec i s = .next t) (hne : t.err ≠ .ok) :
    t = { s with err := t.err } := by
  rcases exec_cases i s with ⟨u, -, hx⟩ | ⟨e, -, hx⟩ <;> cases hx.symm.trans h
  · exact absurd rfl hne
  · rfl

/-- What a word written to CMD does (R67, R68). -/
theorem runCommandWord_cases (s : State) (w : Word) :
    (IllegalCommandWord w ∧ runCommandWord s w = .next (s.raise .illegalOp))
    ∨ (¬ IllegalCommandWord w ∧ ∃ i, runCommandWord s w = exec i s) := by
  obtain ⟨-, hraises, hruns⟩ := illegalWordsRaiseIllegalOp s w
  by_cases hillegal : IllegalCommandWord w
  · exact .inl ⟨hillegal, hraises hillegal⟩
  · obtain ⟨i, -, hi⟩ := hruns hillegal
    exact .inr ⟨hillegal, i, hi⟩

/-- Settles O49: an illegal word raises its error on the state before, and so does each command. -/
theorem errorsArePrecise : Obligations.ErrorsArePrecise := by
  intro s w t h hne
  rcases runCommandWord_cases s w with ⟨-, hw⟩ | ⟨-, i, hw⟩
  · cases hw.symm.trans h
    rfl
  · exact exec_error_frame (hw.symm.trans h) hne

/-- Settles O48: each body's outcome is the table's, and the dispatcher adds ILLEGAL_OP. -/
theorem errorCodesFollowTheTable : Obligations.ErrorCodesFollowTheTable := by
  refine ⟨exec_endsWith, fun s w => ?_⟩
  rcases runCommandWord_cases s w with ⟨hillegal, hw⟩ | ⟨hlegal, i, hw⟩
  · exact ⟨_, hw, iff_of_true rfl hillegal, errorsArePrecise s w _ hw⟩
  · obtain ⟨t, ht, hend⟩ := exec_endsWith i s
    have hnext := hw.trans ht
    exact ⟨t, hnext, iff_of_false (endsWith_ne_illegalOp hend) hlegal, errorsArePrecise s w t hnext⟩

end Sys2Proof.Machine
end

section
/-! PROOFS. The hand-offs (R128, R130), the idle step (R134), and a transmission under a host that keeps its
duties (R131, R140). -/

namespace Sys2Proof.Machine

open Sys2Proof.Spec Sys2Proof.Safety

/-! ## The transmit line (R128) -/

/-- While a pulse lasts the line has its polarity. -/
theorem lineLevel_of_getElem? {ps : List Pulse} {p : Pulse} {j time : Nat} (hj : ps[j]? = some p)
    (hstart : totalMicros (ps.take j) ≤ time) (hend : time < totalMicros (ps.take (j + 1))) :
    lineLevel ps time = p.polarity := by
  induction ps generalizing j time with
  | nil => cases hj
  | cons q qs ih =>
    cases j with
    | zero =>
      cases hj
      exact if_pos (by simpa using hend)
    | succ j =>
      simp only [List.take_succ_cons, totalMicros_cons] at hstart hend
      rw [lineLevel, if_neg (by omega)]
      exact ih hj (by omega) (by omega)

section
variable {s : State} {j : Nat}

/-- The pulse of one entry of TXBUF. -/
def State.pulseAt (s : State) (j : Nat) : Pulse :=
  { polarity := polarityOf j, micros := (s.txAt j).toNat * s.unitUs.toNat }

/-- A sequence that TXBUF holds is handed over whole (R128). -/
theorem transmitPulses_eq (h : s.txLen.toNat ≤ s.params.txCap) :
    transmitPulses s = (List.range s.txLen.toNat).map s.pulseAt := by
  rw [transmitPulses, Nat.min_eq_left h]
  rfl

theorem transmitPulses_getElem? (h : s.txLen.toNat ≤ s.params.txCap) (hj : j < s.txLen.toNat) :
    (transmitPulses s)[j]? = some (s.pulseAt j) := by
  rw [transmitPulses_eq h, List.getElem?_map, List.getElem?_range hj]
  rfl

/-- The driver starts on an entry when the pulses before it are over. -/
theorem totalMicros_take_transmitPulses (h : s.txLen.toNat ≤ s.params.txCap)
    (hj : j ≤ s.txLen.toNat) : totalMicros ((transmitPulses s).take j) = startMicros s j := by
  rw [transmitPulses_eq h, ← List.map_take, List.take_range, Nat.min_eq_left hj, totalMicros,
    List.map_map]
  rfl

theorem totalMicros_transmitPulses (h : s.txLen.toNat ≤ s.params.txCap) :
    totalMicros (transmitPulses s) = startMicros s s.txLen.toNat := by
  rw [← totalMicros_take_transmitPulses h (Nat.le_refl _), List.take_of_length_le]
  simp [transmitPulses_eq h]

end

/-- Settles O14: the pulses are those of the entries in their order, so each lasts from its start to the
next one's. -/
theorem transmitHandOffGivesThePulses : Obligations.TransmitHandOffGivesThePulses := by
  intro s rest hfits hin
  refine ⟨{ s with inputs := rest, handedOff := transmitPulses s }, step_cons hin, rfl, ?_,
    fun j hj => transmitPulses_getElem? hfits hj, fun j time hj hstart hend => ?_,
    fun time hover => ?_⟩
  · simp [transmitPulses_eq hfits]
  · refine lineLevel_of_getElem? (p := s.pulseAt j) (transmitPulses_getElem? hfits hj) ?_ ?_
    · exact (totalMicros_take_transmitPulses hfits (Nat.le_of_lt hj)).trans_le hstart
    · exact hend.trans_eq (totalMicros_take_transmitPulses hfits hj).symm
  · exact lineLevel_idle _ _ ((totalMicros_transmitPulses hfits).trans_le hover)

/-! ## A capture hand-off, and no input (R130, R134) -/

/-- Settles O15. -/
theorem captureHandOffDoesNothing : Obligations.CaptureHandOffDoesNothing :=
  fun _ _ _ _ hin => step_cons hin

/-- Settles O5. -/
theorem noInputNoChange : Obligations.NoInputNoChange :=
  fun _ hin => step_nil hin

/-! ## A transmission under a host that keeps its duties (R131, R140) -/

/-- The sequence that the driver sends is left alone: neither TXLEN nor TXBUF changes. -/
def KeepsTransmission (s t : State) : Prop := t.txLen = s.txLen ∧ t.mem.tx = s.mem.tx

/-- Only the commands that encode onto TXBUF change the sequence (R131.1). -/
theorem exec_keepsTransmission {i : Instr} (hi : writesTransmitBuffer i = false) (s : State) :
    ∃ t, exec i s = .next t ∧ KeepsTransmission s t := by
  rcases exec_cases i s with ⟨u, hu, hx⟩ | ⟨e, -, hx⟩ <;> refine ⟨_, hx, ?_⟩
  · by_contra hchanged
    have hencodes := hu.of_transmit_ne (not_and_or.1 hchanged)
    rcases hencodes with rfl | rfl | rfl <;> cases hi
  · exact ⟨rfl, rfl⟩

/-- While the driver sends, a dutiful move is one that ECC admits and that leaves TXBUF alone. -/
theorem hostMay_transmitting {mon : Monitor} {s : State} {m : Input} (hmay : hostMay mon s m = true)
    (hsends : mon.transmitting = true) :
    moveAdmitted s.params m = true ∧ touchesTransmit s.params m = false := by
  simp only [hostMay, hsends, Bool.true_and, Bool.and_eq_true, Bool.not_eq_true',
    Bool.or_eq_false_iff] at hmay
  obtain ⟨⟨⟨hadmitted, htouches, -⟩, -⟩, -⟩ := hmay
  exact ⟨hadmitted, htouches⟩

section
variable {s : State} {addr size : Nat} {v : Word}

theorem hostAccess_of_admitted (access : Reg → Host.Outcome State Fault Refusal)
    (h : (accessAdmitted addr size && inRegisterSpace s.params addr) = true) :
    hostAccess s addr size access = access (regAt s.params (addr - s.params.eccBase)) := by
  obtain ⟨ha, hs⟩ := Bool.and_eq_true_iff.1 h
  simp [hostAccess, ha, hs]

/-- An admitted write is done at the register its address names (R49). -/
theorem writtenReg_of_admitted {p : Config.Params}
    (h : moveAdmitted p (.write addr size v) = true) :
    writtenReg p (.write addr size v) = some (regAt p (addr - p.eccBase), v) := if_pos h

/-- A write that neither hits TXBUF or TXLEN nor issues an encode leaves the sequence alone. -/
theorem hostWrite_keepsTransmission {m : Input} {r : Reg}
    (hw : writtenReg s.params m = some (r, v)) (ht : touchesTransmit s.params m = false) :
    ∃ t, hostWrite s v r = .next t ∧ KeepsTransmission s t := by
  obtain ⟨hwrites, hissues⟩ := Bool.or_eq_false_iff.1 ht
  cases r with
  | tx | txLen => simp [writesTransmit, hw] at hwrites
  | cmd =>
    cases hd : decode v with
    | ok i =>
      have hi : writesTransmitBuffer i = false := by
        simpa [issuedCommand, hw, hd, Except.toOption] using hissues
      obtain ⟨t, ht, hkeeps⟩ := exec_keepsTransmission hi s
      exact ⟨t, by simpa only [hostWrite, runCommandWord, hd] using ht, hkeeps⟩
    | error e => exact ⟨s.raise .illegalOp, by simp only [hostWrite, runCommandWord, hd], rfl, rfl⟩
  | _ => exact ⟨_, rfl, rfl, rfl⟩

theorem runInput_keepsTransmission {m : Input} (ha : moveAdmitted s.params m = true)
    (ht : touchesTransmit s.params m = false) (hm : m ≠ .reset) :
    ∃ t, runInput s m = .next t ∧ KeepsTransmission s t := by
  cases m with
  | read => exact ⟨_, hostAccess_of_admitted _ ha, rfl, rfl⟩
  | write =>
    obtain ⟨t, hwrite, hkeeps⟩ := hostWrite_keepsTransmission (writtenReg_of_admitted ha) ht
    exact ⟨t, (hostAccess_of_admitted _ ha).trans hwrite, hkeeps⟩
  | transmitHandOff | captureHandOff => exact ⟨_, rfl, rfl, rfl⟩
  | reset => exact absurd rfl hm

end

/-- Settles O55: the duties leave no move but reset that could change the sequence. -/
theorem dutifulHostLeavesTheTransmission : Obligations.DutifulHostLeavesTheTransmission := by
  intro mon s m rest hsends hmay hm hin
  obtain ⟨hadmitted, htouches⟩ := hostMay_transmitting hmay hsends
  rw [step_cons hin]
  exact runInput_keepsTransmission (s := { s with inputs := rest }) hadmitted htouches hm

end Sys2Proof.Machine
end

section
/-! PROOFS. The reset input and the state after reset (R135). -/

namespace Sys2Proof.Machine

/-- `t` has every register and buffer of the state after reset. The fields that R135 does not name
(the parameters, the count of resets, the host's side; log 11) may be any. -/
def State.AtReset (t : State) : Prop :=
  t = { State.reset with
    params := t.params
    resets := t.resets
    inputs := t.inputs
    readData := t.readData
    handedOff := t.handedOff }

theorem State.reset_atReset : State.reset.AtReset := rfl

theorem State.assertReset_atReset (s : State) : s.assertReset.AtReset := rfl

/-- The reset input, when it is next, is asserted on the state without it. -/
theorem step_reset {s : State} {rest : List Input} (hin : s.inputs = .reset :: rest) :
    step s = .next ({ s with inputs := rest } : State).assertReset :=
  step_cons hin

@[simp] theorem cfgWord_zero : cfgWord Cfg.zero = 0 := by decide

/-- Settles O16: both states hold the registers of `State.reset`, whose values are R135's. -/
theorem resetSetsEveryRegister : Obligations.ResetSetsEveryRegister := by
  intro t ht
  have hat : t.AtReset := by
    rcases ht with rfl | ⟨s, rest, hin, hstep⟩
    · exact State.reset_atReset
    · cases (step_reset hin).symm.trans hstep
      exact State.assertReset_atReset _
  rw [hat]
  simp [State.reset]

/-- Settles O17: the step asserts reset, which keeps the parameters and the inputs after it and lists
no entry. -/
theorem resetIsAlwaysTaken : Obligations.ResetIsAlwaysTaken :=
  fun _ _ hin => ⟨_, step_reset hin, rfl, rfl, rfl, rfl⟩

end Sys2Proof.Machine
end
